-- ==== Sys2Proof/Word.lean ====
section
/-! DEFINITION. The widths the spec names: the 32-bit bus and command word (R6), the 16-bit registers, the byte. -/

namespace Sys2Proof

/-- A bus word or command word: 32 bits (R6, R80). -/
abbrev Word := BitVec 32

/-- A 16-bit register value or halfword operand (R20, R81). -/
abbrev Half := BitVec 16

/-- A byte of an emitted sequence, or a byte operand (R8, R81). -/
abbrev Byte := BitVec 8

end Sys2Proof
end

