-- ==== Sys2Proof/Syntax.lean ====
section
/-! DEFINITION. The commands: one constructor per row of spec/opcode_table.json (30_encoding.md R83). -/

namespace Sys2Proof

/-- A command the host can write to `CMD`. An operand has exactly the width its format gives it (R81), so a command
whose operand does not fit its field cannot be written down here; the check of an operand that a host program spells
as a number is `operandFits` in WellFormed.lean (R87). -/
inductive Instr where
  /-- PCK.INIT, format N (R102). -/
  | pckInit
  /-- PCK.BYTE with its `BYTE` operand, format B (R103). -/
  | pckByte (byte : Byte)
  /-- CRC.INIT, format N (R122). -/
  | crcInit
  /-- CRC.BYTE with its `BYTE` operand, format B (R123). -/
  | crcByte (byte : Byte)
  /-- CRC.EMIT, format N (R124). -/
  | crcEmit
  /-- WAKE.EMIT, format N (R141). -/
  | wakeEmit
  /-- HDR.EMIT with its `HALF` operand, the transmission position, format H (R162). -/
  | hdrEmit (half : Half)
  /-- OUT.CLEAR, format N (R180). -/
  | outClear
  /-- BLK.RESET, format N (R181). -/
  | blkReset
  deriving DecidableEq, Repr

end Sys2Proof
end

