-- ==== Sys2Proof/WellFormed.lean ====
section
/-! DEFINITION. The three command formats of 30_encoding.md R81 and the operand check of R87: which numbers a format's
operand field can hold. -/

namespace Sys2Proof

/-- The formats that divide `OPERAND` (R81). -/
inductive Format where
  /-- No operand: bits [15:0] must be 0. -/
  | n
  /-- A byte in bits [7:0]; bits [15:8] must be 0. -/
  | b
  /-- A halfword in bits [15:0]. -/
  | h
  deriving DecidableEq, Repr

/-- The largest operand a format admits (R81). -/
def Format.maxOperand : Format → Nat
  | .n => 0
  | .b => 255
  | .h => 65535

/-- The operand check of R87: a number out of the format's range is refused, never truncated. -/
def operandFits (f : Format) (operand : Nat) : Bool :=
  decide (operand ≤ f.maxOperand)

/-- The format of a command (R83, column "format"). -/
def Instr.format : Instr → Format
  | .pckInit => .n
  | .pckByte _ => .b
  | .crcInit => .n
  | .crcByte _ => .b
  | .crcEmit => .n
  | .wakeEmit => .n
  | .hdrEmit _ => .h
  | .outClear => .n
  | .blkReset => .n

/-- The number in a command's `OPERAND` field (R81, R82): the operand, unextended and unscaled, or 0. -/
def Instr.operand : Instr → Nat
  | .pckInit => 0
  | .pckByte byte => byte.toNat
  | .crcInit => 0
  | .crcByte byte => byte.toNat
  | .crcEmit => 0
  | .wakeEmit => 0
  | .hdrEmit half => half.toNat
  | .outClear => 0
  | .blkReset => 0

/-- A command is well formed when its operand fits its format. The operand types make every `Instr` so
(Laws/PerInstr.lean proves it per constructor); on a number from program text the check can fail. -/
abbrev Instr.WellFormed (i : Instr) : Prop :=
  operandFits i.format i.operand = true

end Sys2Proof
end

