-- ==== Sys2Proof/Decode.lean ====
section
/-! DEFINITION. The command word: its fields (R80 to R82), the opcode map (R83), decoding (R84), and the encoder
(R87: the word of a mnemonic is `(OPC << 24) OR operand`). -/

namespace Sys2Proof

/-- `OPC`, bits [31:24] of a command word (R80). -/
def opcField (w : Word) : Byte := w.extractLsb' 24 8

/-- `RSV`, bits [23:16] of a command word, which every format requires to be 0 (R80). -/
def rsvField (w : Word) : Byte := w.extractLsb' 16 8

/-- `BYTE = w[7:0]`, the operand of format B (R81, R82). -/
def byteOperand (w : Word) : Byte := w.extractLsb' 0 8

/-- `HALF = w[15:0]`, the operand of format H (R81, R82). -/
def halfOperand (w : Word) : Half := w.extractLsb' 0 16

/-- The rows of the opcode map (R83), named by their mnemonics. -/
inductive Op where
  | pckInit | pckByte | crcInit | crcByte | crcEmit | wakeEmit | hdrEmit | outClear | blkReset
  deriving DecidableEq, Repr

/-- Column OPC of the opcode map (R83). -/
def opcOf : Op → Byte
  | .pckInit => 0x01
  | .pckByte => 0x02
  | .crcInit => 0x10
  | .crcByte => 0x11
  | .crcEmit => 0x12
  | .wakeEmit => 0x20
  | .hdrEmit => 0x30
  | .outClear => 0xF0
  | .blkReset => 0xFF

/-- Column format of the opcode map (R83). -/
def formatOf : Op → Format
  | .pckInit => .n
  | .pckByte => .b
  | .crcInit => .n
  | .crcByte => .b
  | .crcEmit => .n
  | .wakeEmit => .n
  | .hdrEmit => .h
  | .outClear => .n
  | .blkReset => .n

/-- Column mask of the opcode map (R83), one value per format. -/
def maskOf (o : Op) : Word :=
  match formatOf o with
  | .n => 0xFFFFFFFF
  | .b => 0xFFFFFF00
  | .h => 0xFFFF0000

/-- Column match of the opcode map (R83). -/
def matchOf : Op → Word
  | .pckInit => 0x01000000
  | .pckByte => 0x02000000
  | .crcInit => 0x10000000
  | .crcByte => 0x11000000
  | .crcEmit => 0x12000000
  | .wakeEmit => 0x20000000
  | .hdrEmit => 0x30000000
  | .outClear => 0xF0000000
  | .blkReset => 0xFF000000

/-- The opcode map's rows in the spec's order (R83). -/
def opcodeMap : List Op :=
  [.pckInit, .pckByte, .crcInit, .crcByte, .crcEmit, .wakeEmit, .hdrEmit, .outClear, .blkReset]

/-- "a word `w` encodes the row when `w AND mask = match`" (R83). -/
def encodesRow (w : Word) (o : Op) : Bool :=
  w &&& maskOf o == matchOf o

/-- The command of a row, with `BYTE = w[7:0]` or `HALF = w[15:0]` (R84). -/
def commandOf (w : Word) : Op → Instr
  | .pckInit => .pckInit
  | .pckByte => .pckByte (byteOperand w)
  | .crcInit => .crcInit
  | .crcByte => .crcByte (byteOperand w)
  | .crcEmit => .crcEmit
  | .wakeEmit => .wakeEmit
  | .hdrEmit => .hdrEmit (halfOperand w)
  | .outClear => .outClear
  | .blkReset => .blkReset

/-- The two ways R84 lets a word be illegal. Both have the one effect `ILL` (log 16). -/
inductive Illegal where
  /-- The opcode is assigned to no row. -/
  | unassignedOpcode
  /-- The opcode is assigned, and a bit its format requires to be 0 is 1. -/
  | mustBeZeroBitSet
  deriving DecidableEq, Repr

/-- What a command word decodes to. -/
inductive Decoded where
  | command (i : Instr)
  | illegal (why : Illegal)
  deriving DecidableEq, Repr

/-- Decoding (R84): the row of R83 that the word encodes, else illegal. Total on every word, and the same in every
state (R86). -/
def decode (w : Word) : Decoded :=
  match opcodeMap.find? (encodesRow w) with
  | some o => .command (commandOf w o)
  | none =>
    if opcodeMap.any (fun o => opcOf o == opcField w) then .illegal .mustBeZeroBitSet
    else .illegal .unassignedOpcode

/-- The opcode-map row of a command. -/
def opOf : Instr → Op
  | .pckInit => .pckInit
  | .pckByte _ => .pckByte
  | .crcInit => .crcInit
  | .crcByte _ => .crcByte
  | .crcEmit => .crcEmit
  | .wakeEmit => .wakeEmit
  | .hdrEmit _ => .hdrEmit
  | .outClear => .outClear
  | .blkReset => .blkReset

/-- The word of a row with an operand: `(OPC << 24) OR operand` (R87). -/
def encodeOp (o : Op) (operand : Nat) : Word :=
  ((opcOf o).setWidth 32 <<< 24) ||| BitVec.ofNat 32 operand

/-- The word of a command (R83, R87). -/
def encode (i : Instr) : Word :=
  encodeOp (opOf i) i.operand

/-- The command the decoder reads from a table word of `nbits` bits. Every command is one 32-bit word (R80), so a
number with a bit above bit 31 is no command word. -/
def decodeTableWord (nbits w : Nat) : Option Instr :=
  if w % 2 ^ nbits < 2 ^ 32 then
    match decode (BitVec.ofNat 32 (w % 2 ^ nbits)) with
    | .command i => some i
    | .illegal _ => none
  else none

end Sys2Proof
end

