-- ==== Sys2Proof/Config.lean ====
section
/-! DEFINITION. The two parameters 00_scope.md R7 leaves OPEN. A State carries them in a field that no step writes,
so a statement about every state is a statement about every value of them. -/

namespace Sys2Proof

/-- The OPEN parameters of R7, `BLOCK_BASE` and `OUT_DEPTH`; "No other parameter exists". -/
structure Params where
  /-- `BLOCK_BASE`: the host address of register offset 0x00. -/
  blockBase : Nat
  /-- `OUT_DEPTH`: the capacity of the output FIFO in bytes. -/
  outDepth  : Nat
  deriving DecidableEq, Repr

/-- What R7 demands of the parameters: `BLOCK_BASE` a multiple of 64, `8 <= OUT_DEPTH <= 65535`. -/
abbrev Params.Ok (p : Params) : Prop :=
  p.blockBase % 64 = 0 ∧ 8 ≤ p.outDepth ∧ p.outDepth ≤ 65535

end Sys2Proof
end

