-- ==== Sys2Proof/Machine/Constants.lean ====
section
/-! DEFINITION. The literals of the source (00_scope.md R5; unaudited, S3 of 93_implementation_defined.md, log 11),
the reset values (10_state.md R41, 70_reset_and_hazards.md R230), and the parameters of the reset state (log 3). -/

namespace Sys2Proof.Machine

/-- The page checksum's seed, decimal 211 (R5, R101). -/
def pckSeed : Half := 0x00D3

/-- The page checksum's multiplier, decimal 211 (R5, R100). -/
def pckMultiplier : Nat := 211

/-- The command checksum's initial value (R5, R121). -/
def crcInitial : Half := 0xFFFF

/-- The command checksum's polynomial constant (R5, R120). -/
def crcPolynomial : Half := 0xA001

/-- The sync marker (R5, R53). -/
def syncMarker : Word := 0xDEADBEEF

/-- The crypt-mode offset of the PageIndex (R5, R160). -/
def cryptOffset : Nat := 0x80

/-- The wake command's function code (R5, R140). -/
def wakeFunction : Byte := 0x06

/-- Reset value of `ACC` (R41). -/
def resetAcc : Half := 0x00D3
/-- Reset value of `CRC` (R41). -/
def resetCrc : Half := 0xFFFF
/-- Reset value of `HDR_TOTAL` (R41). -/
def resetHdrTotal : Half := 0x0000
/-- Reset value of `START_OFFSET` (R41). -/
def resetStartOffset : Byte := 0x01
/-- Reset value of `CRYPT` (R41). -/
def resetCrypt : Bool := false
/-- Reset value of `WAKE_ADDR` (R41). -/
def resetWakeAddr : Byte := 0x20
/-- Reset value of `WAKE_REG` (R41). -/
def resetWakeReg : Half := 0xFFFF
/-- Reset value of `WAKE_VAL` (R41). -/
def resetWakeVal : Half := 0xDEAD
/-- Reset value of `STATUS` (R41). -/
def resetStatus : BitVec 4 := 0
/-- Reset value of `OUT` (R41). -/
def resetOut : List Byte := []

/-- The parameters of `State.reset`. R7 leaves both OPEN: DESIGN CHOICE, the least value R7 admits of each (log 3). -/
def defaultParams : Params := { blockBase := 0, outDepth := 8 }

end Sys2Proof.Machine
end

