-- ==== Sys2Proof/Machine/State.lean ====
section
/-! DEFINITION. The state of the block (10_state.md R20), its OPEN parameters (R7), the reset input (R230), and the
host's side of a run: the events still to be performed and the observation (R250). -/

namespace Sys2Proof.Machine

/-- The error conditions, in the order of their codes, which are their bit positions in `STATUS` (R200). -/
inductive ErrCode where
  /-- Code 0: a `CMD` word that matches no row of the opcode map (R84). -/
  | ill
  /-- Code 1: `pageIndex` is `invalid` (R161). -/
  | idx
  /-- Code 2: the command's output does not fit in `OUT` (R63). -/
  | ovf
  /-- Code 3: an unmapped or misaligned access, or one that is not 4 bytes wide (R55). -/
  | addr
  deriving DecidableEq, Repr

/-- What the host does to the block. The block itself has no step of its own (R75). -/
inductive HostEvent where
  /-- `MemRead(addr, width)`, the width in bytes (R10). -/
  | read (addr width : Nat)
  /-- `MemWrite(addr, width, data)` (R10). Only a 4-byte write reads `data` (R55, log 7). -/
  | write (addr width : Nat) (data : Word)
  /-- The reset input is asserted (`true`) or released (`false`) (R230, log 5). -/
  | setReset (asserted : Bool)
  deriving DecidableEq, Repr

/-- Reasons for a fault. There are none: an error of the block is no trap and stops nothing (R202, R203), and the
block has no halt (R250), so the type has no constructor (log 15). Safe: nothing can be claimed of a fault. -/
inductive Fault where
  deriving DecidableEq, Repr

/-- Reasons for which the model gives a step no meaning. -/
inductive Refusal where
  /-- An instruction without a meaning in this model. Raised by no arm of `exec`. Safe: the run stops. -/
  | notModelled (mnemonic : String)
  /-- A host access while the reset input is asserted: "outside the block's contract" (R231), "the model has no such
  step" (U2). Raised by `serve`, by no command. Safe: the run stops (log 5). -/
  | accessDuringReset
  /-- A bus access whose address lies outside the block's window: it selects another unit of the host's platform, whose
  behaviour the spec does not give. Raised by `serve`, by no command. Safe: the run stops (log 6). -/
  | outsideWindow
  deriving DecidableEq, Repr

/-- The machine. The first ten fields are R20's tuple, "the complete architectural state of the block". -/
structure State where
  /-- `ACC`, the running value of the page checksum (R23). -/
  acc         : Half
  /-- `CRC`, the command checksum register (R24). -/
  crc         : Half
  /-- `HDR_TOTAL`, the number of pages of the attempt (R25). -/
  hdrTotal    : Half
  /-- `START_OFFSET`, the first page index (R26). -/
  startOffset : Byte
  /-- `CRYPT`, crypt mode enabled (R26). -/
  crypt       : Bool
  /-- `WAKE_ADDR`, the wake command's address (R27). -/
  wakeAddr    : Byte
  /-- `WAKE_REG`, the wake command's register number (R27). -/
  wakeReg     : Half
  /-- `WAKE_VAL`, the wake command's value (R27). -/
  wakeVal     : Half
  /-- `STATUS`: ILL in bit 0, IDX in bit 1, OVF in bit 2, ADDR in bit 3 (R33). -/
  status      : BitVec 4
  /-- `OUT`, the output FIFO, its head first (R39, R60). -/
  out         : List Byte
  /-- The OPEN parameters (R7); no step writes them (log 3). -/
  params      : Params
  /-- The level of the reset input (R230; log 5). -/
  resetIn     : Bool
  /-- The model's own: what the host has yet to do, oldest first (log 1). -/
  pending     : List HostEvent
  /-- The model's own: the value every read returned, oldest first (R250; log 4). -/
  reads       : List Word
  /-- The model's own: the bytes received from `OUT_DATA` with VALID = 1, oldest first (R250; log 4). -/
  received    : List Byte
  /-- The model's own: every error event, oldest first (D21; log 4). -/
  errors      : List ErrCode
  deriving DecidableEq, Repr

/-- The block of parameters `p` right after reset (R41), with nothing for the host to do and nothing observed. -/
def State.resetWith (p : Params) : State where
  acc := resetAcc
  crc := resetCrc
  hdrTotal := resetHdrTotal
  startOffset := resetStartOffset
  crypt := resetCrypt
  wakeAddr := resetWakeAddr
  wakeReg := resetWakeReg
  wakeVal := resetWakeVal
  status := resetStatus
  out := resetOut
  params := p
  resetIn := false
  pending := []
  reads := []
  received := []
  errors := []

/-- The machine right after reset (R41), with the parameters of log 3. -/
def State.reset : State := State.resetWith defaultParams

/-- What a step of the machine ends in. -/
abbrev Result := Host.Outcome State Fault Refusal

end Sys2Proof.Machine
end

