-- ==== Sys2Proof/Machine/Flags.lean ====
section
/-! DEFINITION. The only flags of the block: the four sticky error bits of `STATUS` (10_state.md R33, R38;
60_exceptions.md R200). -/

namespace Sys2Proof.Machine

/-- An error's code, which is its bit position in `STATUS` (R200). -/
def codeOf : ErrCode → Nat
  | .ill => 0
  | .idx => 1
  | .ovf => 2
  | .addr => 3

/-- The `STATUS` value with the one bit of an error set. -/
def statusBit (e : ErrCode) : BitVec 4 := 1 <<< codeOf e

/-- Whether the bit of an error is 1 in a `STATUS` value. -/
def hasStatus (st : BitVec 4) (e : ErrCode) : Bool := st.getLsbD (codeOf e)

/-- `STATUS` after an error is raised: its bit is 1, the others are kept (R201, R205). -/
def statusAfterError (e : ErrCode) (st : BitVec 4) : BitVec 4 := st ||| statusBit e

/-- `STATUS <- STATUS AND NOT v[3:0]`, the effect of a write of `v` (R33). -/
def statusAfterWrite (v : Word) (st : BitVec 4) : BitVec 4 := st &&& ~~~(v.extractLsb' 0 4)

end Sys2Proof.Machine
end

