-- ==== Sys2Proof/Machine/Ops.lean ====
section
/-! DEFINITION. The operations the meanings share: raising an error (the block's only exception) and its counterpart,
clearing `STATUS` bits; the output FIFO; reset; the place of an address in the window; the record of a read. -/

namespace Sys2Proof.Machine

/-- `raise Error(E)` (R201): `STATUS.E <- 1` and nothing else of the block. No state is saved and nothing is
redirected (R202). The event is recorded in the observation (D21). -/
def raiseError (e : ErrCode) (s : State) : State :=
  { s with status := statusAfterError e s.status, errors := s.errors ++ [e] }

/-- The clearing of `STATUS` bits by a write (R33), all there is in place of a return from an exception (R203). -/
def clearStatus (v : Word) (s : State) : State :=
  { s with status := statusAfterWrite v s.status }

/-- Whether `n` more bytes fit in `OUT` (R63). -/
def fits (n : Nat) (s : State) : Bool := decide (s.out.length + n ≤ s.params.outDepth)

/-- `OutPush(s)` (R63), all or nothing: `none` where it raises `OVF`. -/
def outPush (bytes : List Byte) (s : State) : Option State :=
  if fits bytes.length s then some { s with out := s.out ++ bytes } else none

/-- A command that pushes `bytes` and then performs its other writes, `others`, only if the push succeeded
(R11, R63). -/
def emitThen (bytes : List Byte) (others : State → State) (s : State) : State :=
  match outPush bytes s with
  | some pushed => others pushed
  | none => raiseError .ovf s

/-- Every state element of R20 takes its reset value (R41, R181, R230). The parameters, the reset input, the host's
queue and the observation are no state elements of the block and stay. -/
def resetBlock (s : State) : State :=
  { s with
    acc := resetAcc, crc := resetCrc, hdrTotal := resetHdrTotal, startOffset := resetStartOffset,
    crypt := resetCrypt, wakeAddr := resetWakeAddr, wakeReg := resetWakeReg, wakeVal := resetWakeVal,
    status := resetStatus, out := resetOut }

/-- The observation of a read that returned `v` (R250). -/
def recordRead (v : Word) (s : State) : State :=
  { s with reads := s.reads ++ [v] }

/-- The offset of an address in the window `BLOCK_BASE .. BLOCK_BASE + 0x3F` (R50); `none` outside it. -/
def windowOffset (p : Params) (addr : Nat) : Option Nat :=
  if p.blockBase ≤ addr ∧ addr < p.blockBase + 64 then some (addr - p.blockBase) else none

/-- The host's write of a command word: `MemWrite(BLOCK_BASE + 0x00, 4, w)` (R80). -/
def commandWrite (p : Params) (w : Word) : HostEvent := .write p.blockBase 4 w

/-- The state with the write of a command word at the head of the host's queue and the reset input released, so
that the next step issues exactly that command (log 10). -/
def queueCommand (w : Word) (s : State) : State :=
  { s with resetIn := false, pending := commandWrite s.params w :: s.pending }

end Sys2Proof.Machine
end

