-- ==== Sys2Proof/Machine/Control.lean ====
section
/-! DEFINITION. The control commands (44_control.md): OUT.CLEAR, BLK.RESET. -/

namespace Sys2Proof.Machine

/-- OUT.CLEAR (R180): `OUT <- empty`. -/
def execOutClear (s : State) : Result :=
  .next { s with out := [] }

/-- BLK.RESET (R181): every state element takes its reset value, as under the reset input. -/
def execBlkReset (s : State) : Result :=
  .next (resetBlock s)

end Sys2Proof.Machine
end

