-- ==== Sys2Proof/Machine/Operands.lean ====
section
/-! DEFINITION. The byte orders of the emitted fields (20_memory.md R53) and the fields of a configuration word
(10_state.md R30 to R32). The operand fields of the command word are in Decode.lean. -/

namespace Sys2Proof.Machine

/-- Bits [7:0] of a 16-bit value. -/
def lowByte (v : Half) : Byte := v.extractLsb' 0 8

/-- Bits [15:8] of a 16-bit value. -/
def highByte (v : Half) : Byte := v.extractLsb' 8 8

/-- A 16-bit value high byte first, "2 big-endian" (R53). -/
def bigEndian (v : Half) : List Byte := [highByte v, lowByte v]

/-- A 16-bit value low byte first, "appended little-endian" (R53). -/
def littleEndian (v : Half) : List Byte := [lowByte v, highByte v]

/-- The sync marker's bytes, big-endian: DE AD BE EF (R53). -/
def syncBytes : List Byte :=
  bigEndian (syncMarker.extractLsb' 16 16) ++ bigEndian (syncMarker.extractLsb' 0 16)

/-- `v[7:0]` of a word written to a configuration register (R31, R32). -/
def wordByte (v : Word) : Byte := v.extractLsb' 0 8

/-- `v[15:0]` of a word written to a configuration register (R30, R32). -/
def wordHalf (v : Word) : Half := v.extractLsb' 0 16

/-- `v[8]` of a word written to `HDR_CFG` (R31). -/
def wordCrypt (v : Word) : Bool := v.getLsbD 8

end Sys2Proof.Machine
end

