-- ==== Sys2Proof/Machine/Crc.lean ====
section
/-! DEFINITION. The command checksum unit (41_command_checksum.md): `crc_step`, `commandChecksum`, CRC.INIT,
CRC.BYTE, CRC.EMIT. -/

namespace Sys2Proof.Machine

/-- One of the 8 iterations of `crc_step` (R120): the bit shifted out decides the XOR with 0xA001 (log 12). -/
def crcShift (c : Half) : Half :=
  if c.getLsbD 0 then (c >>> 1) ^^^ crcPolynomial else c >>> 1

/-- `n` iterations. -/
def crcShifts : Nat → Half → Half
  | 0, c => c
  | n + 1, c => crcShifts n (crcShift c)

/-- `crc_step(crc, b)` (R120): the byte XORed into the low 8 bits, then 8 iterations. -/
def crcStep (crc : Half) (b : Byte) : Half := crcShifts 8 (crc ^^^ b.setWidth 16)

/-- The register after a byte sequence. -/
def crcRun (crc : Half) (bytes : List Byte) : Half := bytes.foldl crcStep crc

/-- `commandChecksum(bytes)` (R121), the full 16-bit register. -/
def commandChecksum (bytes : List Byte) : Half := crcRun crcInitial bytes

/-- CRC.INIT (R122): `CRC <- 0xFFFF`. -/
def execCrcInit (s : State) : Result :=
  .next { s with crc := crcInitial }

/-- CRC.BYTE (R123): `CRC <- crc_step(CRC, BYTE)`. -/
def execCrcByte (byte : Byte) (s : State) : Result :=
  .next { s with crc := crcStep s.crc byte }

/-- CRC.EMIT (R124): `OutPush(CRC[7:0], CRC[15:8])`; `CRC` is not changed. -/
def execCrcEmit (s : State) : Result :=
  .next (emitThen (littleEndian s.crc) id s)

end Sys2Proof.Machine
end

