-- ==== Sys2Proof/Machine/Hdr.lean ====
section
/-! DEFINITION. The frame header assembler (43_frame_header.md): `pageIndex`, the header's bytes, HDR.EMIT. -/

namespace Sys2Proof.Machine

/-- `pageIndex(total, i, offset, crypt)` (R160), exact integers; `none` is the rule's `invalid`. The first check
makes the subtraction exact. -/
def pageIndex (total i : Half) (offset : Byte) (crypt : Bool) : Option Byte :=
  if total.toNat ≤ i.toNat then none
  else
    let base := (total.toNat - i.toNat - 1) + offset.toNat
    let index := if crypt then base + cryptOffset else base
    if 0xFF < index then none else some (BitVec.ofNat 8 index)

/-- The 6 bytes of a frame header: sync marker, index, page checksum (R162). -/
def headerBytes (index checksum : Byte) : List Byte := syncBytes ++ [index, checksum]

/-- HDR.EMIT (R162): `IDX` where the index is invalid, else push the header, which may raise `OVF`. `ACC` is not
changed and not initialised again. -/
def execHdrEmit (half : Half) (s : State) : Result :=
  match pageIndex s.hdrTotal half s.startOffset s.crypt with
  | none => .next (raiseError .idx s)
  | some index => .next (emitThen (headerBytes index (lowByte s.acc)) id s)

end Sys2Proof.Machine
end

