-- ==== Sys2Proof/Machine/Pck.lean ====
section
/-! DEFINITION. The page checksum unit (40_page_checksum.md): `pck_step`, `pageChecksum`, PCK.INIT, PCK.BYTE. -/

namespace Sys2Proof.Machine

/-- `pck_step(acc, b)` (R100): the 17-bit sum, its low 16 bits, then the XOR of the high byte into the low. -/
def pckStep (acc : Half) (b : Byte) : Half :=
  let sum : BitVec 17 := acc.setWidth 17 + b.setWidth 17 * BitVec.ofNat 17 pckMultiplier
  let t : Half := sum.extractLsb' 0 16
  t ^^^ (highByte t).setWidth 16

/-- The running value after a byte sequence. -/
def pckRun (acc : Half) (bytes : List Byte) : Half := bytes.foldl pckStep acc

/-- `pageChecksum(bytes)` (R101), total on the empty sequence too (90_conflicts.md C2). -/
def pageChecksum (bytes : List Byte) : Byte := lowByte (pckRun pckSeed bytes)

/-- PCK.INIT (R102): `ACC <- 0x00D3`. -/
def execPckInit (s : State) : Result :=
  .next { s with acc := pckSeed }

/-- PCK.BYTE (R103): `ACC <- pck_step(ACC, BYTE)`. -/
def execPckByte (byte : Byte) (s : State) : Result :=
  .next { s with acc := pckStep s.acc byte }

end Sys2Proof.Machine
end

