-- ==== Sys2Proof/Machine/Wake.lean ====
section
/-! DEFINITION. The wake command packer (42_wake_command.md): the command's bytes and WAKE.EMIT. -/

namespace Sys2Proof.Machine

/-- `W`, the 6-byte body of the wake command (R140). -/
def wakeBody (addr : Byte) (reg val : Half) : List Byte :=
  [addr, wakeFunction] ++ bigEndian reg ++ bigEndian val

/-- The checksum `c` of the wake command the configuration gives (R140). -/
def wakeChecksum (s : State) : Half := commandChecksum (wakeBody s.wakeAddr s.wakeReg s.wakeVal)

/-- The 8 bytes of the wake command the configuration gives: the body, then its checksum low byte first (R140). -/
def wakeCommand (s : State) : List Byte :=
  wakeBody s.wakeAddr s.wakeReg s.wakeVal ++ littleEndian (wakeChecksum s)

/-- WAKE.EMIT (R141): push the wake command; `CRC <- c` only if the push succeeded. -/
def execWakeEmit (s : State) : Result :=
  .next (emitThen (wakeCommand s) (fun pushed => { pushed with crc := wakeChecksum s }) s)

end Sys2Proof.Machine
end

