-- ==== Sys2Proof/Machine/Dispatch.lean ====
section
/-! DEFINITION. One arm per command: the meaning of a decoded command (R84, "execute row's command"). -/

namespace Sys2Proof.Machine

def exec (i : Instr) (s : State) : Host.Outcome State Fault Refusal :=
  match i with
  | .pckInit => Sys2Proof.Machine.execPckInit s
  | .pckByte byte => Sys2Proof.Machine.execPckByte byte s
  | .crcInit => Sys2Proof.Machine.execCrcInit s
  | .crcByte byte => Sys2Proof.Machine.execCrcByte byte s
  | .crcEmit => Sys2Proof.Machine.execCrcEmit s
  | .wakeEmit => Sys2Proof.Machine.execWakeEmit s
  | .hdrEmit half => Sys2Proof.Machine.execHdrEmit half s
  | .outClear => Sys2Proof.Machine.execOutClear s
  | .blkReset => Sys2Proof.Machine.execBlkReset s

end Sys2Proof.Machine
end

