-- ==== Sys2Proof/Machine/Regs.lean ====
section
/-! DEFINITION. The register map (10_state.md section 4): which register an access selects, what a read returns
and does (R28 to R37), and what a write to a register other than `CMD` does. -/

namespace Sys2Proof.Machine

/-- The eleven registers of the window. -/
inductive Reg where
  | cmd | status | pckAcc | crcVal | hdrTotal | hdrCfg | wakeAddr | wakeReg | wakeVal | outData | outLevel
  deriving DecidableEq, Repr

/-- Column offset of the register map. -/
def offsetOf : Reg → Nat
  | .cmd => 0x00
  | .status => 0x04
  | .pckAcc => 0x08
  | .crcVal => 0x0C
  | .hdrTotal => 0x10
  | .hdrCfg => 0x14
  | .wakeAddr => 0x18
  | .wakeReg => 0x1C
  | .wakeVal => 0x20
  | .outData => 0x24
  | .outLevel => 0x28

/-- The register map's rows in order. -/
def registerMap : List Reg :=
  [.cmd, .status, .pckAcc, .crcVal, .hdrTotal, .hdrCfg, .wakeAddr, .wakeReg, .wakeVal, .outData, .outLevel]

/-- The register a window access selects: a 4-byte access at the offset of a mapped register. `none` is R55's address
error: unmapped, misaligned, or another width. -/
def selectReg (offset width : Nat) : Option Reg :=
  if width = 4 then registerMap.find? (fun r => offsetOf r == offset) else none

/-- The value of a read of `OUT_DATA`: `{1, b}` for the head `b`, 0 when `OUT` is empty (R34). -/
def outDataValue : List Byte → Word
  | [] => 0
  | b :: _ => ((1 : BitVec 1) ++ b).setWidth 32

/-- The value a read of a register returns (R28 to R35, R37); reserved bits read as 0 (R36). -/
def readValue (r : Reg) (s : State) : Word :=
  match r with
  | .cmd => 0
  | .status => s.status.setWidth 32
  | .pckAcc => s.acc.setWidth 32
  | .crcVal => s.crc.setWidth 32
  | .hdrTotal => s.hdrTotal.setWidth 32
  | .hdrCfg => (BitVec.ofBool s.crypt ++ s.startOffset).setWidth 32
  | .wakeAddr => s.wakeAddr.setWidth 32
  | .wakeReg => s.wakeReg.setWidth 32
  | .wakeVal => s.wakeVal.setWidth 32
  | .outData => outDataValue s.out
  | .outLevel => BitVec.ofNat 16 s.params.outDepth ++ BitVec.ofNat 16 s.out.length

/-- `OUT_DATA`'s pop (R34): the head byte leaves `OUT` and is received; nothing happens when `OUT` is empty. -/
def popOut (s : State) : State :=
  match s.out with
  | [] => s
  | b :: rest => { s with out := rest, received := s.received ++ [b] }

/-- The side effect of a read: only a read of `OUT_DATA` has one (R56). -/
def readEffect (r : Reg) (s : State) : State :=
  match r with
  | .outData => popOut s
  | .cmd | .status | .pckAcc | .crcVal | .hdrTotal | .hdrCfg | .wakeAddr | .wakeReg | .wakeVal | .outLevel => s

/-- A read of a mapped register: its value is observed, its side effect happens. -/
def readReg (r : Reg) (s : State) : State :=
  recordRead (readValue r s) (readEffect r s)

/-- A write of `v` to a register other than `CMD` (R30 to R33); a read-only register ignores it (R28, R29, R34, R35).
A `CMD` write issues a command and is `issueCommand`'s (Bus.lean). -/
def writeReg (r : Reg) (v : Word) (s : State) : State :=
  match r with
  | .status => clearStatus v s
  | .hdrTotal => { s with hdrTotal := wordHalf v }
  | .hdrCfg => { s with startOffset := wordByte v, crypt := wordCrypt v }
  | .wakeAddr => { s with wakeAddr := wordByte v }
  | .wakeReg => { s with wakeReg := wordHalf v }
  | .wakeVal => { s with wakeVal := wordHalf v }
  | .cmd | .pckAcc | .crcVal | .outData | .outLevel => s

end Sys2Proof.Machine
end

