-- ==== Sys2Proof/Machine/Bus.lean ====
section
/-! DEFINITION. What one event of the host does (20_memory.md R52, R55, R56; 30_encoding.md R84; 70_reset_and_hazards.md
R230, R231). -/

namespace Sys2Proof.Machine

/-- `on MemWrite(BLOCK_BASE + 0x00, 4, w)` (R84): execute the command of the word, or raise `ILL`. -/
def issueCommand (w : Word) (s : State) : Result :=
  match decode w with
  | .command i => exec i s
  | .illegal _ => .next (raiseError .ill s)

/-- A read at an offset of the window (R52); an address error reads as 0 and raises `ADDR` (R55). -/
def readWindow (offset width : Nat) (s : State) : Result :=
  match selectReg offset width with
  | some r => .next (readReg r s)
  | none => .next (recordRead 0 (raiseError .addr s))

/-- A write at an offset of the window (R52); an address error has no effect but `ADDR` (R55). -/
def writeWindow (offset width : Nat) (v : Word) (s : State) : Result :=
  match selectReg offset width with
  | some .cmd => issueCommand v s
  | some r => .next (writeReg r v s)
  | none => .next (raiseError .addr s)

/-- An access reaches the block when reset is not asserted (R231) and its address is in the window (R50). -/
def accessWindow (addr : Nat) (access : Nat → State → Result) (s : State) : Result :=
  if s.resetIn then .refused .accessDuringReset
  else
    match windowOffset s.params addr with
    | some offset => access offset s
    | none => .refused .outsideWindow

/-- One event of the host, performed completely (R52, R70). Asserting reset resets every state element (R230). -/
def serve (e : HostEvent) (s : State) : Result :=
  match e with
  | .read addr width => accessWindow addr (fun offset => readWindow offset width) s
  | .write addr width v => accessWindow addr (fun offset => writeWindow offset width v) s
  | .setReset true => .next (resetBlock { s with resetIn := true })
  | .setReset false => .next { s with resetIn := false }

end Sys2Proof.Machine
end

