-- ==== Sys2Proof/Machine/Program.lean ====
section
/-! DEFINITION. Host programs (30_encoding.md section 6): the assembler lines of R87, the pseudo-instructions of R88 and
their exact expansions, and the host events a program stands for. Syntax only: a program's meaning is the meaning of
its accesses. -/

namespace Sys2Proof.Machine

/-- A line that is no pseudo-instruction (R87). Numbers are as the program text spells them, not yet checked. -/
inductive BasicLine where
  /-- `wr REG, imm32`. -/
  | wr (r : Reg) (imm : Nat)
  /-- `rd REG`. -/
  | rd (r : Reg)
  /-- `cmd imm32`, a raw command word. -/
  | cmd (imm : Nat)
  /-- A command mnemonic with its operand, 0 where its format has none. -/
  | mnemonic (o : Op) (operand : Nat)
  deriving DecidableEq, Repr

/-- A line of a host program: a basic line or a pseudo-instruction (R88). -/
inductive Line where
  | basic (l : BasicLine)
  /-- `pck.seq b0, ..., bn-1`. -/
  | pckSeq (bytes : List Nat)
  /-- `crc.seq b0, ..., bn-1`. -/
  | crcSeq (bytes : List Nat)
  /-- `hdr.cfg total, offset, crypt`. -/
  | hdrCfg (total offset crypt : Nat)
  /-- `wake.cfg addr, reg, val`. -/
  | wakeCfg (addr reg val : Nat)
  /-- `frame.hdr i, b0, ..., bn-1`. -/
  | frameHdr (i : Nat) (bytes : List Nat)
  /-- `drain n`. -/
  | drain (n : Nat)
  /-- `clr.status`. -/
  | clrStatus
  deriving DecidableEq, Repr

/-- `pck.init`, then `pck.byte` for each byte (R88). -/
def expandPckSeq (bytes : List Nat) : List BasicLine :=
  .mnemonic .pckInit 0 :: bytes.map (.mnemonic .pckByte)

/-- `crc.init`, then `crc.byte` for each byte (R88). -/
def expandCrcSeq (bytes : List Nat) : List BasicLine :=
  .mnemonic .crcInit 0 :: bytes.map (.mnemonic .crcByte)

/-- The exact expansion of a line (R88). -/
def expand : Line → List BasicLine
  | .basic l => [l]
  | .pckSeq bytes => expandPckSeq bytes
  | .crcSeq bytes => expandCrcSeq bytes
  | .hdrCfg total offset crypt => [.wr .hdrTotal total, .wr .hdrCfg ((crypt <<< 8) ||| offset)]
  | .wakeCfg addr reg val => [.wr .wakeAddr addr, .wr .wakeReg reg, .wr .wakeVal val]
  | .frameHdr i bytes => expandPckSeq bytes ++ [.mnemonic .hdrEmit i]
  | .drain n => List.replicate n (.rd .outData)
  | .clrStatus => [.wr .status 0xF]

/-- `MemWrite(BLOCK_BASE + offset(REG), 4, imm32)`, refused where the number is no 32-bit word (log 13). -/
def assembleWrite (p : Params) (r : Reg) (imm : Nat) : Option HostEvent :=
  if imm < 2 ^ 32 then some (.write (p.blockBase + offsetOf r) 4 (BitVec.ofNat 32 imm)) else none

/-- The one access of a basic line (R87). A mnemonic whose operand does not fit its format is refused, "rather than
truncating"; else it is `wr CMD, word` with the word of R83. -/
def assembleLine (p : Params) : BasicLine → Option HostEvent
  | .wr r imm => assembleWrite p r imm
  | .rd r => some (.read (p.blockBase + offsetOf r) 4)
  | .cmd imm => assembleWrite p .cmd imm
  | .mnemonic o operand =>
    if operandFits (formatOf o) operand then some (commandWrite p (encodeOp o operand)) else none

/-- The accesses of a list of basic lines, in order; refused if one line is. -/
def assembleLines (p : Params) : List BasicLine → Option (List HostEvent)
  | [] => some []
  | l :: rest =>
    match assembleLine p l, assembleLines p rest with
    | some e, some es => some (e :: es)
    | _, _ => none

/-- The accesses of a host program, "executed top to bottom by the host" (R87). -/
def assemble (p : Params) (program : List Line) : Option (List HostEvent) :=
  assembleLines p (program.flatMap expand)

end Sys2Proof.Machine
end

