-- ==== Sys2Proof/Safety.lean ====
section
/-! DEFINITION. The words the claims are made in: a run of host events, the invariant of the machine, what an event
feeds to a checksum and appends to the output, and what it means that a word issues a command or is illegal. -/

namespace Sys2Proof.Machine

/-- A list of host events performed one after the other, stopping at the first event without a meaning (R70). -/
def serveAll : List HostEvent → State → Result
  | [], s => .next s
  | e :: es, s =>
    match serve e s with
    | .next t => serveAll es t
    | .fault f => .fault f
    | .refused r => .refused r

/-- The host's read of a mapped register (R52). -/
def regRead (p : Params) (r : Reg) : HostEvent := .read (p.blockBase + offsetOf r) 4

/-- The host's write of a mapped register (R52). -/
def regWrite (p : Params) (r : Reg) (v : Word) : HostEvent := .write (p.blockBase + offsetOf r) 4 v

/-- An address in the window (R50). -/
abbrev InWindow (p : Params) (addr : Nat) : Prop := p.blockBase ≤ addr ∧ addr < p.blockBase + 64

/-- An access, read or write of any width, whose address is in the window. -/
def windowAccess (p : Params) : HostEvent → Bool
  | .read addr _ => decide (InWindow p addr)
  | .write addr _ _ => decide (InWindow p addr)
  | .setReset _ => false

/-- The command an event issues: that of a 4-byte write of a legal word to `CMD` (R80, R84). -/
def commandAt (p : Params) : HostEvent → Option Instr
  | .write addr width v =>
    if addr = p.blockBase ∧ width = 4 then
      match decode v with
      | .command i => some i
      | .illegal _ => none
    else none
  | .read _ _ => none
  | .setReset _ => none

/-- A word that issues a command: written to `CMD`, it does what the command's meaning says. -/
def IssuesCommand (w : Word) (i : Instr) : Prop :=
  ∀ s : State, s.resetIn = false → serve (commandWrite s.params w) s = exec i s

/-- An illegal word: written to `CMD`, it raises `ILL` and changes nothing else (R84). -/
def RaisesOnlyIll (w : Word) : Prop :=
  ∀ s : State, s.resetIn = false → serve (commandWrite s.params w) s = .next (raiseError .ill s)

/-- The events that start the page checksum again: PCK.INIT, BLK.RESET, reset (R104). -/
def restartsPck (p : Params) (e : HostEvent) : Bool :=
  e == .setReset true || commandAt p e == some .pckInit || commandAt p e == some .blkReset

/-- The byte an event feeds to the page checksum (R103). -/
def fedToPck (p : Params) (e : HostEvent) : List Byte :=
  match commandAt p e with
  | some (.pckByte b) => [b]
  | _ => []

/-- The events that set `CRC` without regard to its value: CRC.INIT, WAKE.EMIT, BLK.RESET, reset (R125). -/
def restartsCrc (p : Params) (e : HostEvent) : Bool :=
  e == .setReset true || commandAt p e == some .crcInit || commandAt p e == some .wakeEmit
    || commandAt p e == some .blkReset

/-- The byte an event feeds to the command checksum (R123). -/
def fedToCrc (p : Params) (e : HostEvent) : List Byte :=
  match commandAt p e with
  | some (.crcByte b) => [b]
  | _ => []

/-- The events that empty `OUT`: OUT.CLEAR, BLK.RESET, reset (R39, R60). -/
def discardsOut (p : Params) (e : HostEvent) : Bool :=
  e == .setReset true || commandAt p e == some .outClear || commandAt p e == some .blkReset

/-- The bytes an event appends to `OUT` in a state, by the rules of the three emitting commands (R124, R141, R162). -/
def emittedBytes (e : HostEvent) (s : State) : List Byte :=
  match commandAt s.params e with
  | some .crcEmit => if s.out.length + 2 ≤ s.params.outDepth then littleEndian s.crc else []
  | some .wakeEmit => if s.out.length + 8 ≤ s.params.outDepth then wakeCommand s else []
  | some (.hdrEmit half) =>
    match pageIndex s.hdrTotal half s.startOffset s.crypt with
    | some index =>
      if s.out.length + 6 ≤ s.params.outDepth then headerBytes index (lowByte s.acc) else []
    | none => []
  | _ => []

/-- The bytes a run appends to `OUT`, in order. -/
def emittedAll : List HostEvent → State → List Byte
  | [], _ => []
  | e :: es, s =>
    match serve e s with
    | .next t => emittedBytes e s ++ emittedAll es t
    | .fault _ => emittedBytes e s
    | .refused _ => emittedBytes e s

/-- Every state element of R20 holds its reset value. -/
abbrev State.AtReset (s : State) : Prop := resetBlock s = s

/-- The invariant of the machine: the parameters are ones R7 admits; `OUT` holds at most `OUT_DEPTH` bytes (R61);
while reset is asserted every state element holds its reset value (R230); a `STATUS` bit is 1 only if its error was
raised (R33). -/
structure State.Inv (s : State) : Prop where
  params : s.params.Ok
  level : s.out.length ≤ s.params.outDepth
  reset : s.resetIn = true → s.AtReset
  status : ∀ e : ErrCode, hasStatus s.status e = true → e ∈ s.errors

/-- The registers a command may change, as reads show them: the destinations its rule names (R102, R103, R122 to
R124, R141, R162, R180, R181). `OUT` shows in `OUT_DATA` and `OUT_LEVEL`. -/
def mayChange : Instr → List Reg
  | .pckInit => [.pckAcc]
  | .pckByte _ => [.pckAcc]
  | .crcInit => [.crcVal]
  | .crcByte _ => [.crcVal]
  | .crcEmit => [.outData, .outLevel, .status]
  | .wakeEmit => [.outData, .outLevel, .crcVal, .status]
  | .hdrEmit _ => [.outData, .outLevel, .status]
  | .outClear => [.outData, .outLevel]
  | .blkReset => registerMap

/-- The errors a legally encoded command can raise (R200). -/
def mayRaise : Instr → List ErrCode
  | .pckInit => []
  | .pckByte _ => []
  | .crcInit => []
  | .crcByte _ => []
  | .crcEmit => [.ovf]
  | .wakeEmit => [.ovf]
  | .hdrEmit _ => [.idx, .ovf]
  | .outClear => []
  | .blkReset => []

/-- The reserved bits of a register (register map of 10_state.md, R36). -/
def reservedBits : Reg → Word
  | .cmd => 0x00000000
  | .status => 0xFFFFFFF0
  | .pckAcc => 0xFFFF0000
  | .crcVal => 0xFFFF0000
  | .hdrTotal => 0xFFFF0000
  | .hdrCfg => 0xFFFFFE00
  | .wakeAddr => 0xFFFFFF00
  | .wakeReg => 0xFFFF0000
  | .wakeVal => 0xFFFF0000
  | .outData => 0xFFFFFE00
  | .outLevel => 0x00000000

end Sys2Proof.Machine
end

