-- ==== Sys2Proof/Certificates/Slice0/Obligations.lean ====
section
/-! DEFINITION. The statements about the model, from the numbered rules of spec/. -/

open Sys2Proof Sys2Proof.Machine

/-! ### Encoding -/

/-- R83: the opcode map is the spec's table, no two rows overlap, and a legal word encodes exactly one row. -/
def Obligations.OpcodeMapMatchesTheTable : Prop :=
  opcodeMap.map (fun o => (o, opcOf o, formatOf o, maskOf o, matchOf o)) =
    [(.pckInit, 0x01, .n, 0xFFFFFFFF, 0x01000000), (.pckByte, 0x02, .b, 0xFFFFFF00, 0x02000000),
     (.crcInit, 0x10, .n, 0xFFFFFFFF, 0x10000000), (.crcByte, 0x11, .b, 0xFFFFFF00, 0x11000000),
     (.crcEmit, 0x12, .n, 0xFFFFFFFF, 0x12000000), (.wakeEmit, 0x20, .n, 0xFFFFFFFF, 0x20000000),
     (.hdrEmit, 0x30, .h, 0xFFFF0000, 0x30000000), (.outClear, 0xF0, .n, 0xFFFFFFFF, 0xF0000000),
     (.blkReset, 0xFF, .n, 0xFFFFFFFF, 0xFF000000)] ∧
  (∀ (w : Word) (o : Op), encodesRow w o = true ↔ w &&& maskOf o = matchOf o) ∧
  (∀ (w : Word) (o o' : Op), encodesRow w o = true → encodesRow w o' = true → o = o') ∧
  (∀ (w : Word) (i : Instr), decode w = .command i ↔ encodesRow w (opOf i) = true ∧ commandOf w (opOf i) = i)

/-- Every command decodes from its word, with every value of its operand (R83, R87). -/
def Obligations.DecodeOfEncodeIsTheCommand : Prop :=
  ∀ i : Instr, i.WellFormed → decode (encode i) = .command i

/-- Each legal word has one meaning and each command one word: a word that decodes to a command is that command's
word, so no bit of a command word is ignored (R81, R83). -/
def Obligations.EncodeOfDecodeIsTheWord : Prop :=
  ∀ (w : Word) (i : Instr), decode w = .command i → encode i = w

/-- The words 95_test_vectors.md section 2.7 spells out, each with its row of R83. -/
def Obligations.SpelledOutWordsDecode : Prop :=
  decode 0x01000000 = .command .pckInit ∧ decode 0x020000AB = .command (.pckByte 0xAB) ∧
  decode 0x10000000 = .command .crcInit ∧ decode 0x11000017 = .command (.crcByte 0x17) ∧
  decode 0x12000000 = .command .crcEmit ∧ decode 0x20000000 = .command .wakeEmit ∧
  decode 0x30001234 = .command (.hdrEmit 0x1234) ∧ decode 0x3000FFFF = .command (.hdrEmit 0xFFFF) ∧
  decode 0xF0000000 = .command .outClear ∧ decode 0xFF000000 = .command .blkReset

/-- R84: which words are illegal (an unassigned opcode, or an assigned one with a must-be-zero bit set), that an
illegal word sets `ILL` and changes nothing else, and that a legal one executes its command with `BYTE = w[7:0]` or
`HALF = w[15:0]`. -/
def Obligations.IllegalWordsOnlyRaiseIll : Prop :=
  (∀ w : Word, decode w = .illegal .unassignedOpcode ↔
    (opcField w).toNat = 0x00 ∨
    (0x03 ≤ (opcField w).toNat ∧ (opcField w).toNat ≤ 0x0F) ∨
    (0x13 ≤ (opcField w).toNat ∧ (opcField w).toNat ≤ 0x1F) ∨
    (0x21 ≤ (opcField w).toNat ∧ (opcField w).toNat ≤ 0x2F) ∨
    (0x31 ≤ (opcField w).toNat ∧ (opcField w).toNat ≤ 0xEF) ∨
    (0xF1 ≤ (opcField w).toNat ∧ (opcField w).toNat ≤ 0xFE)) ∧
  (∀ w : Word, decode w = .illegal .mustBeZeroBitSet ↔
    ((opcField w = 0x01 ∨ opcField w = 0x10 ∨ opcField w = 0x12 ∨ opcField w = 0x20 ∨ opcField w = 0xF0 ∨
      opcField w = 0xFF) ∧ w.extractLsb' 0 24 ≠ 0) ∨
    ((opcField w = 0x02 ∨ opcField w = 0x11) ∧ w.extractLsb' 8 16 ≠ 0) ∨
    (opcField w = 0x30 ∧ w.extractLsb' 16 8 ≠ 0)) ∧
  (∀ (w : Word) (why : Illegal), decode w = .illegal why → RaisesOnlyIll w) ∧
  (∀ (w : Word) (i : Instr), decode w = .command i → IssuesCommand w i) ∧
  (∀ (w : Word) (b : Byte), decode w = .command (.pckByte b) → b = w.extractLsb' 0 8) ∧
  (∀ (w : Word) (b : Byte), decode w = .command (.crcByte b) → b = w.extractLsb' 0 8) ∧
  (∀ (w : Word) (h : Half), decode w = .command (.hdrEmit h) → h = w.extractLsb' 0 16) ∧
  RaisesOnlyIll 0x00000000

/-! ### Steps, runs and the host's accesses -/

/-- A step performs the host's oldest event; when that is a `CMD` write of a word that decodes to `i`, the step is
`exec i` in the state without that event (R52, R80, R84). The queue is the model's own (log 1). -/
def Obligations.StepRunsTheDecodedCommand : Prop :=
  (∀ (s : State) (e : HostEvent) (rest : List HostEvent), s.pending = e :: rest →
    step s = serve e { s with pending := rest }) ∧
  (∀ (s : State) (w : Word) (i : Instr) (rest : List HostEvent),
    s.resetIn = false → s.pending = .write s.params.blockBase 4 w :: rest → decode w = .command i →
    step s = exec i { s with pending := rest })

/-- A command's own word, placed as the next event, makes the very next step run that command and leaves the rest of
the host's queue in place (R80, R83; the placement is the model's, log 10). -/
def Obligations.FetchedWordRunsNext : Prop :=
  ∀ (s : State) (i : Instr), step (s.withFetchWord 32 (encode i).toNat) = exec i { s with resetIn := false }

/-- With nothing for the host to do, any number of steps keeps all the state (R75, R213, R250). That a step with an
empty queue answers next is the model's reading (log 2), over the model's own queue (log 1). -/
def Obligations.IdleBlockKeepsItsState : Prop :=
  ∀ (n : Nat) (s : State), s.pending = [] → Host.Core.run Sys2Proof.core n s = .next s

/-- The steps of a run perform the host's events in the order of the queue, each completely, and a read returns what
the state left by every earlier event, and by no later one, holds (R52, R70). The queue, and that a step performs its
oldest event, are the model's own (log 1). -/
def Obligations.EventsTakeEffectInOrder : Prop :=
  (∀ (es rest : List HostEvent) (s : State), s.pending = es ++ rest →
    Host.Core.run Sys2Proof.core es.length s = serveAll es { s with pending := rest }) ∧
  (∀ (es later : List HostEvent) (s u t : State) (r : Reg),
    serveAll es s = .next u → u.resetIn = false →
    serveAll (es ++ regRead u.params r :: later) s = .next t →
    ∃ others : List Word, t.reads = u.reads ++ readValue r u :: others)

/-- Every access in the window completes when reset is not asserted, whatever the state, and so do both events of the
reset input (R52, R203). -/
def Obligations.WindowAccessesComplete : Prop :=
  (∀ (e : HostEvent) (s : State), s.resetIn = false → windowAccess s.params e = true →
    ∃ t, serve e s = .next t ∧ t.params = s.params ∧ t.resetIn = false ∧ t.pending = s.pending) ∧
  (∀ (b : Bool) (s : State), ∃ t, serve (.setReset b) s = .next t ∧ t.params = s.params ∧ t.resetIn = b ∧
    t.pending = s.pending)

/-- A step is refused exactly for an access while reset is asserted and for an access outside the window; it never
faults (R231, U2; the two refusals are the model's, log 5 and log 6). -/
def Obligations.OnlyAccessesOutsideTheContractAreRefused : Prop :=
  (∀ (s : State) (r : Refusal), step s = .refused r ↔
    ∃ (addr width : Nat) (rest : List HostEvent),
      (s.pending = .read addr width :: rest ∨ ∃ v, s.pending = .write addr width v :: rest) ∧
      ((s.resetIn = true ∧ r = .accessDuringReset) ∨
       (s.resetIn = false ∧ (addr < s.params.blockBase ∨ s.params.blockBase + 64 ≤ addr) ∧ r = .outsideWindow))) ∧
  (∀ s : State, (∃ t, step s = .next t) ∨ ∃ r, step s = .refused r)

/-! ### The register window -/

/-- R55: an access to an unmapped or misaligned offset, or of another width, reads as 0, writes nothing and sets
`ADDR`. -/
def Obligations.AddressErrorsOnlySetAddr : Prop :=
  ∀ (s : State) (offset width : Nat) (v : Word),
    s.resetIn = false → offset < 64 → (0x2C ≤ offset ∨ offset % 4 ≠ 0 ∨ width ≠ 4) →
    serve (.read (s.params.blockBase + offset) width) s =
      .next { s with status := s.status ||| 0b1000, errors := s.errors ++ [.addr], reads := s.reads ++ [0] } ∧
    serve (.write (s.params.blockBase + offset) width v) s =
      .next { s with status := s.status ||| 0b1000, errors := s.errors ++ [.addr] }

/-- R28, R29, R35: `PCK_ACC`, `CRC_VAL` and `OUT_LEVEL` read as the rules say, and a write of them has no effect and
sets no error bit. -/
def Obligations.ReadOnlyRegistersIgnoreWrites : Prop :=
  ∀ (s : State) (v : Word), s.resetIn = false →
    serve (.read (s.params.blockBase + 0x08) 4) s = .next { s with reads := s.reads ++ [s.acc.setWidth 32] } ∧
    serve (.write (s.params.blockBase + 0x08) 4 v) s = .next s ∧
    (s.acc.setWidth 32).extractLsb' 0 8 = lowByte s.acc ∧
    serve (.read (s.params.blockBase + 0x0C) 4) s = .next { s with reads := s.reads ++ [s.crc.setWidth 32] } ∧
    serve (.write (s.params.blockBase + 0x0C) 4 v) s = .next s ∧
    serve (.read (s.params.blockBase + 0x28) 4) s =
      .next { s with reads := s.reads ++ [BitVec.ofNat 16 s.params.outDepth ++ BitVec.ofNat 16 s.out.length] } ∧
    serve (.write (s.params.blockBase + 0x28) 4 v) s = .next s

/-- R30, R31, R32: a configuration register stores the bits the rules name and reads them back zero-extended. -/
def Obligations.ConfigurationRegistersStoreTheirFields : Prop :=
  ∀ (s : State) (v : Word), s.resetIn = false →
    serve (.read (s.params.blockBase + 0x10) 4) s = .next { s with reads := s.reads ++ [s.hdrTotal.setWidth 32] } ∧
    serve (.write (s.params.blockBase + 0x10) 4 v) s = .next { s with hdrTotal := v.extractLsb' 0 16 } ∧
    (∃ x : Word, serve (.read (s.params.blockBase + 0x14) 4) s = .next { s with reads := s.reads ++ [x] } ∧
      x.toNat = (if s.crypt then 256 else 0) + s.startOffset.toNat) ∧
    serve (.write (s.params.blockBase + 0x14) 4 v) s =
      .next { s with startOffset := v.extractLsb' 0 8, crypt := v.getLsbD 8 } ∧
    serve (.read (s.params.blockBase + 0x18) 4) s = .next { s with reads := s.reads ++ [s.wakeAddr.setWidth 32] } ∧
    serve (.write (s.params.blockBase + 0x18) 4 v) s = .next { s with wakeAddr := v.extractLsb' 0 8 } ∧
    serve (.read (s.params.blockBase + 0x1C) 4) s = .next { s with reads := s.reads ++ [s.wakeReg.setWidth 32] } ∧
    serve (.write (s.params.blockBase + 0x1C) 4 v) s = .next { s with wakeReg := v.extractLsb' 0 16 } ∧
    serve (.read (s.params.blockBase + 0x20) 4) s = .next { s with reads := s.reads ++ [s.wakeVal.setWidth 32] } ∧
    serve (.write (s.params.blockBase + 0x20) 4 v) s = .next { s with wakeVal := v.extractLsb' 0 16 }

/-- R33: `STATUS` reads with ILL, IDX, OVF, ADDR in bits 0 to 3; a write clears exactly the bits written 1, ignores
`v[31:4]` and never sets one; a bit becomes 1 only through an error being raised. -/
def Obligations.StatusBitsAreWriteOneToClear : Prop :=
  (∀ (s : State) (v : Word), s.resetIn = false →
    (∃ x : Word, serve (.read (s.params.blockBase + 0x04) 4) s = .next { s with reads := s.reads ++ [x] } ∧
      x.getLsbD 0 = hasStatus s.status .ill ∧ x.getLsbD 1 = hasStatus s.status .idx ∧
      x.getLsbD 2 = hasStatus s.status .ovf ∧ x.getLsbD 3 = hasStatus s.status .addr ∧ x.toNat < 16) ∧
    (∃ st : BitVec 4, serve (.write (s.params.blockBase + 0x04) 4 v) s = .next { s with status := st } ∧
      ∀ k < 4, st.getLsbD k = (s.status.getLsbD k && !v.getLsbD k))) ∧
  (∀ (e : HostEvent) (s t : State) (c : ErrCode), serve e s = .next t →
    hasStatus s.status c = false → hasStatus t.status c = true → t.errors = s.errors ++ [c])

/-- R34: a read of `OUT_DATA` returns the head of `OUT` with VALID = 1 and removes it, or returns 0 and changes
nothing when `OUT` is empty; a write has no effect. -/
def Obligations.OutDataReadPopsTheHead : Prop :=
  ∀ s : State, s.resetIn = false →
    (∀ (b : Byte) (rest : List Byte), s.out = b :: rest →
      ∃ x : Word, serve (.read (s.params.blockBase + 0x24) 4) s =
          .next { s with out := rest, received := s.received ++ [b], reads := s.reads ++ [x] } ∧
        x.toNat = 256 + b.toNat) ∧
    (s.out = [] →
      serve (.read (s.params.blockBase + 0x24) 4) s = .next { s with reads := s.reads ++ [0] }) ∧
    (∀ v : Word, serve (.write (s.params.blockBase + 0x24) 4 v) s = .next s)

/-- R37: `CMD` reads as 0 with no side effect; a write of it issues one command (or is illegal, R84). -/
def Obligations.CmdReadsZeroAndIssuesCommands : Prop :=
  ∀ s : State, s.resetIn = false →
    serve (.read (s.params.blockBase + 0x00) 4) s = .next { s with reads := s.reads ++ [0] } ∧
    ∀ w : Word,
      (∃ i, decode w = .command i ∧ serve (.write (s.params.blockBase + 0x00) 4 w) s = exec i s) ∨
      (∃ why, decode w = .illegal why ∧
        serve (.write (s.params.blockBase + 0x00) 4 w) s = .next (raiseError .ill s))

/-- R36: every reserved bit of the register map reads as 0, two written values that differ only in reserved bits do
the same, and a write to a register other than `CMD` raises no error. -/
def Obligations.ReservedBitsReadZeroAndIgnoreWrites : Prop :=
  (∀ (r : Reg) (s : State), readValue r s &&& reservedBits r = 0) ∧
  (∀ (r : Reg) (s : State) (v v' : Word), v &&& ~~~reservedBits r = v' &&& ~~~reservedBits r →
    serve (regWrite s.params r v) s = serve (regWrite s.params r v') s) ∧
  (∀ (r : Reg) (s : State) (v : Word), r ≠ .cmd → s.resetIn = false →
    ∃ t, serve (regWrite s.params r v) s = .next t ∧ t.errors = s.errors)

/-- R56: which accesses have a side effect and which are idempotent. A write of a register other than `CMD` repeated is
that write once, and of a read-only register has no effect; a read of a register other than `OUT_DATA` only returns its
value; `CMD` writes and `OUT_DATA` reads are not idempotent. -/
def Obligations.SideEffectsOfRegisterAccesses : Prop :=
  (∀ (r : Reg) (s t : State) (v : Word), r ≠ .cmd → serve (regWrite s.params r v) s = .next t →
    serve (regWrite s.params r v) t = .next t) ∧
  (∀ (r : Reg) (s : State) (v : Word), r ∈ [Reg.pckAcc, .crcVal, .outData, .outLevel] → s.resetIn = false →
    serve (regWrite s.params r v) s = .next s) ∧
  (∀ (r : Reg) (s : State), r ≠ .outData → s.resetIn = false →
    serve (regRead s.params r) s = .next { s with reads := s.reads ++ [readValue r s] }) ∧
  (∃ (s t u : State) (w : Word), serve (commandWrite s.params w) s = .next t ∧
    serve (commandWrite s.params w) t = .next u ∧ u ≠ t) ∧
  (∃ s t u : State, serve (regRead s.params .outData) s = .next t ∧ serve (regRead s.params .outData) t = .next u ∧
    u.out ≠ t.out)

/-- R61: in every state of the invariant `OUT` holds at most `OUT_DEPTH` bytes, and `OUT_LEVEL` shows its length in
bits [15:0] and `OUT_DEPTH` in bits [31:16], both exactly. -/
def Obligations.OutLevelShowsFillAndDepth : Prop :=
  ∀ s : State, s.Inv → s.resetIn = false →
    s.out.length ≤ s.params.outDepth ∧
    ∃ x : Word, serve (regRead s.params .outLevel) s = .next { s with reads := s.reads ++ [x] } ∧
      (x.extractLsb' 0 16).toNat = s.out.length ∧ (x.extractLsb' 16 16).toNat = s.params.outDepth

/-- A read of a register changes no register but what a pop of `OUT` shows in `OUT_DATA` and `OUT_LEVEL`; a write of a
register other than `CMD` changes no other register (R30 to R37, R56). -/
def Obligations.RegisterAccessFrame : Prop :=
  (∀ (r q : Reg) (s t : State), serve (regRead s.params r) s = .next t →
    (r ≠ .outData ∨ (q ≠ .outData ∧ q ≠ .outLevel)) →
    readValue q t = readValue q s ∧ t.errors = s.errors ∧ t.params = s.params ∧ t.resetIn = s.resetIn ∧
      t.pending = s.pending) ∧
  (∀ (r q : Reg) (s t : State) (v : Word), r ≠ .cmd → serve (regWrite s.params r v) s = .next t → q ≠ r →
    readValue q t = readValue q s ∧ t.out = s.out ∧ t.errors = s.errors ∧ t.reads = s.reads ∧
      t.received = s.received ∧ t.params = s.params ∧ t.resetIn = s.resetIn ∧ t.pending = s.pending)

/-! ### Page checksum -/

/-- R100: `pck_step` in exact arithmetic, the 17-bit bound of its sum and the 16-bit bound of its result. -/
def Obligations.PckStepArithmetic : Prop :=
  ∀ (acc : Half) (b : Byte),
    (pckStep acc b).toNat =
      (acc.toNat + b.toNat * 211) % 0x10000 ^^^ (acc.toNat + b.toNat * 211) % 0x10000 / 0x100 ∧
    acc.toNat + b.toNat * 211 ≤ 0x1D22C ∧
    ((acc.toNat + b.toNat * 211) % 0x10000 ^^^ (acc.toNat + b.toNat * 211) % 0x10000 / 0x100) < 0x10000

/-- R101: `pageChecksum` in exact arithmetic, total, 0xD3 on the empty sequence. -/
def Obligations.PageChecksumArithmetic : Prop :=
  (∀ bytes : List Byte, (pageChecksum bytes).toNat =
    bytes.foldl (fun acc b => (acc + b.toNat * 211) % 0x10000 ^^^ (acc + b.toNat * 211) % 0x10000 / 0x100) 211
      % 0x100) ∧
  pageChecksum [] = 0xD3

/-- R102: PCK.INIT, its word, its effect, and the words of its opcode that are illegal. -/
def Obligations.PckInitStartsThePageChecksum : Prop :=
  IssuesCommand 0x01000000 .pckInit ∧
  (∀ s : State, exec .pckInit s = .next { s with acc := 0x00D3 }) ∧
  (∀ s : State, s.acc = 0x00D3 → exec .pckInit s = .next s) ∧
  (∀ w : Word, opcField w = 0x01 → w.extractLsb' 0 24 ≠ 0 → RaisesOnlyIll w)

/-- R103: PCK.BYTE, its words, its effect, its corner cases, and the words of its opcode that are illegal. -/
def Obligations.PckByteFeedsOneByte : Prop :=
  (∀ b : Byte, IssuesCommand ((0x020000 : BitVec 24) ++ b) (.pckByte b)) ∧
  (∀ (b : Byte) (s : State), exec (.pckByte b) s = .next { s with acc := pckStep s.acc b }) ∧
  (∀ w : Word, opcField w = 0x02 → w.extractLsb' 8 16 ≠ 0 → RaisesOnlyIll w) ∧
  (∀ acc : Half, pckStep acc 0 = acc ^^^ acc >>> 8 ∧ (pckStep acc 0 = acc ↔ highByte acc = 0) ∧
    highByte (pckStep acc 0) = highByte acc ∧ lowByte (pckStep acc 0) = lowByte acc ^^^ highByte acc) ∧
  (∀ n : Nat, pckRun 0x00D3 (List.replicate n 0) = 0x00D3) ∧
  (∀ (acc : Half) (n : Nat), pckRun acc (List.replicate (2 * n) 0) = acc) ∧
  pckStep 0x00D3 0xFF = 0xD3D3 ∧ pckStep 0xFFFF 0xFF = 0xD2FE ∧ pckStep 0x0000 0x00 = 0x0000 ∧
  pckStep 0x00D3 0x01 = 0x01A7

/-- R104: after PCK.INIT and any accesses of the window that do not start the checksum again, with commands of other
units, register accesses and illegal words among them, `ACC[7:0]` is the page checksum of exactly the bytes fed; and
only PCK.INIT, PCK.BYTE, BLK.RESET and reset change `ACC`. -/
def Obligations.PageChecksumOfTheBytesFed : Prop :=
  (∀ (s : State) (es : List HostEvent), s.resetIn = false →
    (∀ e ∈ es, windowAccess s.params e = true ∧ restartsPck s.params e = false) →
    ∃ t, serveAll (commandWrite s.params 0x01000000 :: es) s = .next t ∧
      lowByte t.acc = pageChecksum (es.flatMap (fedToPck s.params))) ∧
  (∀ (e : HostEvent) (s t : State), serve e s = .next t → t.acc ≠ s.acc →
    commandAt s.params e = some .pckInit ∨ (∃ b, commandAt s.params e = some (.pckByte b)) ∨
    commandAt s.params e = some .blkReset ∨ e = .setReset true)

/-! ### Command checksum -/

/-- `crc_step` in exact arithmetic: the byte XORed into the low 8 bits, then 8 iterations in which the bit shifted out
decides the XOR with 0xA001 (R120). These two details are PRESUMED (log 12): R120 marks them "from general knowledge,
not in source". -/
def Obligations.CrcStepArithmetic : Prop :=
  ∀ (crc : Half) (b : Byte),
    (crcStep crc b).toNat =
      Nat.repeat (fun c => if c % 2 = 1 then c / 2 ^^^ 0xA001 else c / 2) 8 (crc.toNat ^^^ b.toNat)

/-- `commandChecksum` in exact arithmetic, total, 0xFFFF on the empty sequence (R120, R121). The iteration it spells
out has the two PRESUMED details of R120 (log 12). -/
def Obligations.CommandChecksumArithmetic : Prop :=
  (∀ bytes : List Byte, (commandChecksum bytes).toNat =
    bytes.foldl (fun crc b =>
      Nat.repeat (fun c => if c % 2 = 1 then c / 2 ^^^ 0xA001 else c / 2) 8 (crc ^^^ b.toNat)) 0xFFFF) ∧
  commandChecksum [] = 0xFFFF

/-- R122: CRC.INIT, its word, its effect, and the words of its opcode that are illegal. -/
def Obligations.CrcInitStartsTheCommandChecksum : Prop :=
  IssuesCommand 0x10000000 .crcInit ∧
  (∀ s : State, exec .crcInit s = .next { s with crc := 0xFFFF }) ∧
  (∀ w : Word, opcField w = 0x10 → w.extractLsb' 0 24 ≠ 0 → RaisesOnlyIll w)

/-- R123: CRC.BYTE, its words, its effect, its corner cases, and the words of its opcode that are illegal. -/
def Obligations.CrcByteFeedsOneByte : Prop :=
  (∀ b : Byte, IssuesCommand ((0x110000 : BitVec 24) ++ b) (.crcByte b)) ∧
  (∀ (b : Byte) (s : State), exec (.crcByte b) s = .next { s with crc := crcStep s.crc b }) ∧
  (∀ w : Word, opcField w = 0x11 → w.extractLsb' 8 16 ≠ 0 → RaisesOnlyIll w) ∧
  crcStep 0xFFFF 0x00 = 0x40BF ∧ crcStep 0xFFFF 0x01 = 0x807E ∧ crcStep 0xFFFF 0x80 = 0xE0BE ∧
  crcStep 0xFFFF 0xFF = 0x00FF

/-- R124: CRC.EMIT appends `CRC[7:0]` then `CRC[15:8]` and changes nothing else, or raises `OVF` and appends nothing;
twice in a row it appends the same two bytes twice; right after CRC.INIT it appends FF FF. -/
def Obligations.CrcEmitAppendsLowByteFirst : Prop :=
  IssuesCommand 0x12000000 .crcEmit ∧
  (∀ w : Word, opcField w = 0x12 → w.extractLsb' 0 24 ≠ 0 → RaisesOnlyIll w) ∧
  (∀ s : State, s.out.length + 2 ≤ s.params.outDepth →
    exec .crcEmit s = .next { s with out := s.out ++ [s.crc.extractLsb' 0 8, s.crc.extractLsb' 8 8] }) ∧
  (∀ s : State, s.params.outDepth < s.out.length + 2 → exec .crcEmit s = .next (raiseError .ovf s)) ∧
  (∀ s : State, s.resetIn = false → s.out.length + 4 ≤ s.params.outDepth →
    serveAll [commandWrite s.params 0x12000000, commandWrite s.params 0x12000000] s =
      .next { s with out := s.out ++ [s.crc.extractLsb' 0 8, s.crc.extractLsb' 8 8,
        s.crc.extractLsb' 0 8, s.crc.extractLsb' 8 8] }) ∧
  (∀ s : State, s.resetIn = false → s.out.length + 2 ≤ s.params.outDepth →
    serveAll [commandWrite s.params 0x10000000, commandWrite s.params 0x12000000] s =
      .next { s with crc := 0xFFFF, out := s.out ++ [0xFF, 0xFF] })

/-- R125: after CRC.INIT and any accesses of the window that do not set `CRC` anew, `CRC` is the command checksum of
exactly the bytes fed; only CRC.INIT, CRC.BYTE, WAKE.EMIT, BLK.RESET and reset change `CRC`; and the bytes of
"123456789" give 0x4B37. -/
def Obligations.CommandChecksumOfTheBytesFed : Prop :=
  (∀ (s : State) (es : List HostEvent), s.resetIn = false →
    (∀ e ∈ es, windowAccess s.params e = true ∧ restartsCrc s.params e = false) →
    ∃ t, serveAll (commandWrite s.params 0x10000000 :: es) s = .next t ∧
      t.crc = commandChecksum (es.flatMap (fedToCrc s.params))) ∧
  (∀ (e : HostEvent) (s t : State), serve e s = .next t → t.crc ≠ s.crc →
    commandAt s.params e = some .crcInit ∨ (∃ b, commandAt s.params e = some (.crcByte b)) ∨
    commandAt s.params e = some .wakeEmit ∨ commandAt s.params e = some .blkReset ∨ e = .setReset true) ∧
  commandChecksum [0x31, 0x32, 0x33, 0x34, 0x35, 0x36, 0x37, 0x38, 0x39] = 0x4B37

/-! ### Wake command -/

/-- R140, R142: the wake command's bytes, register and value high byte first, checksum over exactly the 6 body bytes
low byte first; and the source's example with the checksum the rules give. -/
def Obligations.WakeCommandLayout : Prop :=
  (∀ s : State, ∃ body : List Byte,
    body = [s.wakeAddr, 0x06, s.wakeReg.extractLsb' 8 8, s.wakeReg.extractLsb' 0 8,
      s.wakeVal.extractLsb' 8 8, s.wakeVal.extractLsb' 0 8] ∧
    wakeCommand s = body ++ [(commandChecksum body).extractLsb' 0 8, (commandChecksum body).extractLsb' 8 8]) ∧
  (∀ s : State, s.wakeAddr.toNat = 32 → s.wakeReg.toNat = 65535 → s.wakeVal = 0xDEAD →
    wakeCommand s = [0x20, 0x06, 0xFF, 0xFF, 0xDE, 0xAD, 0x17, 0x42])

/-- R141: WAKE.EMIT appends the wake command and leaves its checksum in `CRC`, whatever `CRC` held, or raises `OVF`
with nothing appended and `CRC` kept; CRC.EMIT right after it appends the same checksum bytes; the body of a zero
configuration; the example from reset. -/
def Obligations.WakeEmitPacksTheWakeCommand : Prop :=
  IssuesCommand 0x20000000 .wakeEmit ∧
  (∀ w : Word, opcField w = 0x20 → w.extractLsb' 0 24 ≠ 0 → RaisesOnlyIll w) ∧
  (∀ (s : State) (body : List Byte) (c : Half),
    body = [s.wakeAddr, 0x06, s.wakeReg.extractLsb' 8 8, s.wakeReg.extractLsb' 0 8,
      s.wakeVal.extractLsb' 8 8, s.wakeVal.extractLsb' 0 8] → c = commandChecksum body →
    (s.out.length + 8 ≤ s.params.outDepth →
      exec .wakeEmit s =
        .next { s with out := s.out ++ body ++ [c.extractLsb' 0 8, c.extractLsb' 8 8], crc := c }) ∧
    (s.params.outDepth < s.out.length + 8 → exec .wakeEmit s = .next (raiseError .ovf s)) ∧
    (s.resetIn = false → s.out.length + 10 ≤ s.params.outDepth →
      serveAll [commandWrite s.params 0x20000000, commandWrite s.params 0x12000000] s =
        .next { s with out := s.out ++ body ++ [c.extractLsb' 0 8, c.extractLsb' 8 8,
          c.extractLsb' 0 8, c.extractLsb' 8 8], crc := c })) ∧
  wakeBody 0 0 0 = [0x00, 0x06, 0x00, 0x00, 0x00, 0x00] ∧
  (∀ p : Params, p.Ok → exec .wakeEmit (State.resetWith p) =
    .next { State.resetWith p with out := [0x20, 0x06, 0xFF, 0xFF, 0xDE, 0xAD, 0x17, 0x42], crc := 0x4217 })

/-! ### Frame header -/

/-- R160: `pageIndex` in exact arithmetic, with the range of its base. -/
def Obligations.PageIndexArithmetic : Prop :=
  ∀ (total i : Half) (offset : Byte) (crypt : Bool),
    (∀ index : Byte, pageIndex total i offset crypt = some index ↔
      i.toNat < total.toNat ∧
      index.toNat = (total.toNat - i.toNat - 1) + offset.toNat + (if crypt then 0x80 else 0)) ∧
    (total.toNat ≤ i.toNat → pageIndex total i offset crypt = none) ∧
    (i.toNat < total.toNat → (total.toNat - i.toNat - 1) + offset.toNat ≤ 65789 ∧
      (0xFF < (total.toNat - i.toNat - 1) + offset.toNat + (if crypt then 0x80 else 0) →
        pageIndex total i offset crypt = none))

/-- R161: HDR.EMIT raises `IDX` exactly when `HALF >= HDR_TOTAL` or the index does not fit one byte; nothing else of
the state changes then. -/
def Obligations.IdxRaisedExactlyWithoutAnIndex : Prop :=
  ∀ (half : Half) (s : State),
    (pageIndex s.hdrTotal half s.startOffset s.crypt = none ↔
      s.hdrTotal.toNat ≤ half.toNat ∨
      0xFF < (s.hdrTotal.toNat - half.toNat - 1) + s.startOffset.toNat + 0x80 * s.crypt.toNat) ∧
    (exec (.hdrEmit half) s = .next (raiseError .idx s) ↔
      pageIndex s.hdrTotal half s.startOffset s.crypt = none)

/-- R162: HDR.EMIT, its words, its effect (the six bytes, and nothing else), `IDX` before `OVF`, and its corner
cases. -/
def Obligations.HdrEmitAssemblesTheHeader : Prop :=
  (∀ half : Half, IssuesCommand ((0x3000 : BitVec 16) ++ half) (.hdrEmit half)) ∧
  (∀ w : Word, opcField w = 0x30 → w.extractLsb' 16 8 ≠ 0 → RaisesOnlyIll w) ∧
  (∀ (half : Half) (s : State) (index : Byte), pageIndex s.hdrTotal half s.startOffset s.crypt = some index →
    (s.out.length + 6 ≤ s.params.outDepth →
      exec (.hdrEmit half) s =
        .next { s with out := s.out ++ [0xDE, 0xAD, 0xBE, 0xEF, index, s.acc.extractLsb' 0 8] }) ∧
    (s.params.outDepth < s.out.length + 6 → exec (.hdrEmit half) s = .next (raiseError .ovf s))) ∧
  (∀ (half : Half) (s : State), pageIndex s.hdrTotal half s.startOffset s.crypt = none →
    exec (.hdrEmit half) s = .next (raiseError .idx s)) ∧
  (∀ (total : Half) (offset : Byte) (crypt : Bool), total ≠ 0 →
    offset.toNat + (if crypt then 0x80 else 0) ≤ 0xFF →
    ∃ index, pageIndex total (total - 1) offset crypt = some index ∧
      index.toNat = offset.toNat + (if crypt then 0x80 else 0)) ∧
  (∀ (total i : Half) (offset : Byte) (crypt : Bool) (first index : Byte),
    pageIndex total 0 offset crypt = some first → pageIndex total i offset crypt = some index →
    index.toNat ≤ first.toNat) ∧
  (∀ (half : Half) (s : State), s.hdrTotal = 0 → exec (.hdrEmit half) s = .next (raiseError .idx s)) ∧
  pageIndex 256 0 0 false = some 0xFF ∧ pageIndex 256 0 1 false = none ∧
  (∀ (half : Half) (s : State), s.crypt = true → 0x80 ≤ s.startOffset.toNat →
    exec (.hdrEmit half) s = .next (raiseError .idx s))

/-- R164: image page `k` has transmission position `total - 1 - k` and index `k + offset`, `+ 0x80` in crypt mode. -/
def Obligations.ImagePageHasItsOwnIndex : Prop :=
  ∀ (total k : Half) (offset : Byte) (crypt : Bool), k.toNat < total.toNat →
    k.toNat + offset.toNat + (if crypt then 0x80 else 0) ≤ 0xFF →
    ∃ index, pageIndex total (total - 1 - k) offset crypt = some index ∧
      index.toNat = k.toNat + offset.toNat + (if crypt then 0x80 else 0)

/-- R165: over `i = 0 .. total - 1` the indices are strictly descending, pairwise distinct, and all legal exactly when
`offset + total - 1 + 0x80 * crypt <= 0xFF`, that is for at most `256 - offset` or `128 - offset` pages. -/
def Obligations.IndicesDescendAndAreDistinct : Prop :=
  ∀ (total : Half) (offset : Byte) (crypt : Bool),
    (∀ (i : Half) (a : Byte), pageIndex total i offset crypt = some a →
      a.toNat + i.toNat = offset.toNat + total.toNat - 1 + (if crypt then 0x80 else 0)) ∧
    (∀ (i j : Half) (a b : Byte), pageIndex total i offset crypt = some a → pageIndex total j offset crypt = some b →
      i.toNat < j.toNat → b.toNat < a.toNat) ∧
    (∀ (i j : Half) (a : Byte), pageIndex total i offset crypt = some a → pageIndex total j offset crypt = some a →
      i = j) ∧
    (0 < total.toNat →
      ((∀ i : Half, i.toNat < total.toNat → ∃ a, pageIndex total i offset crypt = some a) ↔
        offset.toNat + total.toNat - 1 + (if crypt then 0x80 else 0) ≤ 0xFF) ∧
      ((∀ i : Half, i.toNat < total.toNat → ∃ a, pageIndex total i offset crypt = some a) ↔
        total.toNat ≤ (if crypt then 128 else 256) - offset.toNat))

/-! ### Control and reset -/

/-- R180: OUT.CLEAR, its word, its effect, and the words of its opcode that are illegal. -/
def Obligations.OutClearEmptiesTheFifo : Prop :=
  IssuesCommand 0xF0000000 .outClear ∧
  (∀ s : State, exec .outClear s = .next { s with out := [] }) ∧
  (∀ s : State, s.out = [] → exec .outClear s = .next s) ∧
  (∀ s : State, s.resetIn = false →
    serveAll [commandWrite s.params 0xF0000000, regRead s.params .outData] s =
      .next { s with out := [], reads := s.reads ++ [0] }) ∧
  (∀ w : Word, opcField w = 0xF0 → w.extractLsb' 0 24 ≠ 0 → RaisesOnlyIll w)

/-- R181: BLK.RESET, its word, its effect on every state element, and the words of its opcode that are illegal and
reset nothing; it does to the block what the reset input does, after which HDR.EMIT raises `IDX`. -/
def Obligations.BlkResetResetsTheBlock : Prop :=
  IssuesCommand 0xFF000000 .blkReset ∧
  (∀ s : State, exec .blkReset s = .next { s with
    acc := 0x00D3, crc := 0xFFFF, hdrTotal := 0, startOffset := 0x01, crypt := false, wakeAddr := 0x20,
    wakeReg := 0xFFFF, wakeVal := 0xDEAD, status := 0, out := [] }) ∧
  (∀ w : Word, opcField w = 0xFF → w.extractLsb' 0 24 ≠ 0 → RaisesOnlyIll w) ∧
  (∀ s t u : State, exec .blkReset s = .next t → serve (.setReset true) s = .next u →
    u = { t with resetIn := true }) ∧
  (∀ (s t : State) (half : Half), exec .blkReset s = .next t → exec (.hdrEmit half) t = .next (raiseError .idx t))

/-- R41: every state element after reset, for every value of the OPEN parameters. -/
def Obligations.ResetValuesOfTheState : Prop :=
  ∀ s : State, (s = State.reset ∨ ∃ p : Params, s = State.resetWith p) →
    s.acc = 0x00D3 ∧ s.crc = 0xFFFF ∧ s.hdrTotal = 0x0000 ∧ s.startOffset = 0x01 ∧ s.crypt = false ∧
    s.wakeAddr = 0x20 ∧ s.wakeReg = 0xFFFF ∧ s.wakeVal = 0xDEAD ∧ s.status = 0 ∧ s.out = []

/-- Asserting the reset input, and BLK.RESET, give every state element its reset value, from every state whatever it held
(R230). The reset input as a level that events assert and release is the model's (log 5), and so are the last two
clauses: while it stays asserted no access is performed (R231) and the state stays as it is; releasing it changes the
level only. -/
def Obligations.ResetInputResetsEveryElement : Prop :=
  (∀ s : State, serve (.setReset true) s = .next { s with
    acc := 0x00D3, crc := 0xFFFF, hdrTotal := 0, startOffset := 0x01, crypt := false, wakeAddr := 0x20,
    wakeReg := 0xFFFF, wakeVal := 0xDEAD, status := 0, out := [], resetIn := true }) ∧
  (∀ s : State, exec .blkReset s = .next { s with
    acc := 0x00D3, crc := 0xFFFF, hdrTotal := 0, startOffset := 0x01, crypt := false, wakeAddr := 0x20,
    wakeReg := 0xFFFF, wakeVal := 0xDEAD, status := 0, out := [] }) ∧
  (∀ (es : List HostEvent) (s t : State), serve (.setReset true) s = .next t →
    (∀ e ∈ es, e ≠ .setReset false) → ∀ u, serveAll es t = .next u → u = t) ∧
  (∀ s : State, serve (.setReset false) s = .next { s with resetIn := false })

/-- The invariant holds right after reset, for every admitted value of the parameters (R7, R41). -/
def Obligations.ResetStateMeetsTheInvariant : Prop :=
  (∀ p : Params, p.Ok → (State.resetWith p).Inv) ∧ State.reset.Inv

/-- Every step keeps the invariant: the parameters, the bound of `OUT` (R61), the reset values while reset is asserted
(R230), and that a `STATUS` bit is 1 only after its error (R33). -/
def Obligations.EveryStepKeepsTheInvariant : Prop :=
  ∀ s t : State, s.Inv → step s = .next t → t.Inv

/-! ### Errors -/

/-- R200: the codes, for each error exactly the accesses that raise it, that only the bit is recorded (`errors` and
`reads` are the observation), and that the six other commands raise no error. -/
def Obligations.ErrorsHaveExactlyTheirCauses : Prop :=
  (codeOf .ill = 0 ∧ codeOf .idx = 1 ∧ codeOf .ovf = 2 ∧ codeOf .addr = 3) ∧
  ∀ (e : HostEvent) (s t : State), serve e s = .next t →
    (t.errors = s.errors ++ [.ill] ↔ ∃ w why, e = commandWrite s.params w ∧ decode w = .illegal why) ∧
    (t.errors = s.errors ++ [.idx] ↔ ∃ half, commandAt s.params e = some (.hdrEmit half) ∧
      pageIndex s.hdrTotal half s.startOffset s.crypt = none) ∧
    (t.errors = s.errors ++ [.ovf] ↔
      (commandAt s.params e = some .crcEmit ∧ s.params.outDepth < s.out.length + 2) ∨
      (commandAt s.params e = some .wakeEmit ∧ s.params.outDepth < s.out.length + 8) ∨
      (∃ half index, commandAt s.params e = some (.hdrEmit half) ∧
        pageIndex s.hdrTotal half s.startOffset s.crypt = some index ∧ s.params.outDepth < s.out.length + 6)) ∧
    (t.errors = s.errors ++ [.addr] ↔
      ∃ addr width, (e = .read addr width ∨ ∃ v, e = .write addr width v) ∧
        (width ≠ 4 ∨ (addr - s.params.blockBase) % 4 ≠ 0 ∨ 0x2C ≤ addr - s.params.blockBase)) ∧
    (t.errors ≠ s.errors → t = { s with status := t.status, errors := t.errors, reads := t.reads }) ∧
    (∀ i, commandAt s.params e = some i → i ≠ .crcEmit → i ≠ .wakeEmit → (∀ half, i ≠ .hdrEmit half) →
      t.errors = s.errors)

/-- R201: an access that raises an error changes its `STATUS` bit and nothing else; a read that raises one raises
`ADDR` and returns 0. (`errors` and `reads` are the observation.) -/
def Obligations.ErrorsArePrecise : Prop :=
  ∀ (e : HostEvent) (s t : State), serve e s = .next t → t.errors ≠ s.errors →
    ∃ c : ErrCode, hasStatus t.status c = true ∧
      (t = { s with status := s.status ||| 1 <<< codeOf c, errors := s.errors ++ [c] } ∨
       (c = .addr ∧ (∃ addr width, e = .read addr width) ∧
        t = { s with status := s.status ||| 0b1000, errors := s.errors ++ [c], reads := s.reads ++ [0] }))

/-- R203: no `STATUS` bit gates anything: with any other `STATUS` the same event has the same effect on everything but
`STATUS` itself and the value of a `STATUS` read; and a set bit stays set until the host writes 1 to it, BLK.RESET or
the reset input. -/
def Obligations.StatusBitsGateNothingAndStick : Prop :=
  (∀ (e : HostEvent) (s t : State) (st : BitVec 4), serve e s = .next t →
    ∃ t', serve e { s with status := st } = .next t' ∧
      t' = { t with status := t'.status, reads := t'.reads } ∧
      (e ≠ regRead s.params .status → t'.reads = t.reads)) ∧
  (∀ (e : HostEvent) (s : State) (st : BitVec 4) (r : Refusal), serve e s = .refused r →
    serve e { s with status := st } = .refused r) ∧
  (∀ (e : HostEvent) (s t : State) (c : ErrCode), serve e s = .next t →
    hasStatus s.status c = true → hasStatus t.status c = false →
    (∃ v : Word, e = regWrite s.params .status v ∧ v.getLsbD (codeOf c) = true) ∨
    commandAt s.params e = some .blkReset ∨ e = .setReset true)

/-- R204: at most one error per access, in the order ADDR, ILL, IDX, OVF: a bad access to offset 0 is never decoded;
an illegal word raises only `ILL`; HDR.EMIT without an index raises only `IDX` even when its output would not fit. -/
def Obligations.OneErrorPerAccessInPriorityOrder : Prop :=
  (∀ (e : HostEvent) (s t : State), serve e s = .next t →
    t.errors = s.errors ∨ ∃ c, t.errors = s.errors ++ [c]) ∧
  (∀ (s : State) (width : Nat) (w : Word), s.resetIn = false → width ≠ 4 →
    serve (.write (s.params.blockBase + 0x00) width w) s = .next (raiseError .addr s)) ∧
  (∀ (s : State) (w : Word) (why : Illegal), s.resetIn = false → decode w = .illegal why →
    serve (commandWrite s.params w) s = .next (raiseError .ill s)) ∧
  (∀ (s : State) (half : Half), s.resetIn = false →
    pageIndex s.hdrTotal half s.startOffset s.crypt = none → s.params.outDepth < s.out.length + 6 →
    serve (commandWrite s.params (encode (.hdrEmit half))) s = .next (raiseError .idx s)) ∧
  (∀ (s : State) (half : Half) (index : Byte), s.resetIn = false →
    pageIndex s.hdrTotal half s.startOffset s.crypt = some index → s.params.outDepth < s.out.length + 6 →
    serve (commandWrite s.params (encode (.hdrEmit half))) s = .next (raiseError .ovf s))

/-- R205: an error leaves its own bit 1 whether or not it was 1 before and keeps every other bit; nothing of the block
counts occurrences. -/
def Obligations.ErrorsSetTheirBitBesideTheOthers : Prop :=
  ∀ (e : HostEvent) (s t : State) (c : ErrCode), serve e s = .next t → t.errors = s.errors ++ [c] →
    (∀ d : ErrCode, hasStatus t.status d = (d == c || hasStatus s.status d)) ∧
    (hasStatus s.status c = true → t = { s with errors := t.errors, reads := t.reads })

/-! ### Frames and the output stream -/

/-- The frame of every command: registers outside its destinations read as before (R102, R103, R122 to R124, R141,
R162, R180), `STATUS` bits outside the errors it can raise are kept, and so are the parameters, the reset input, the
host's queue and the observation of reads. -/
def Obligations.CommandFrame : Prop :=
  ∀ (i : Instr) (s t : State), exec i s = .next t →
    (∀ r : Reg, r ∉ mayChange i → readValue r t = readValue r s) ∧
    (∀ c : ErrCode, i ≠ .blkReset → c ∉ mayRaise i → hasStatus t.status c = hasStatus s.status c) ∧
    (i ≠ .outClear → i ≠ .blkReset → ∃ bytes, t.out = s.out ++ bytes) ∧
    (Reg.outData ∉ mayChange i → t.out = s.out) ∧
    (t.errors = s.errors ∨ ∃ c ∈ mayRaise i, t.errors = s.errors ++ [c]) ∧
    t.params = s.params ∧ t.resetIn = s.resetIn ∧ t.pending = s.pending ∧ t.reads = s.reads ∧
    t.received = s.received

/-- R60: along a run that neither clears nor resets `OUT`, the bytes received followed by the bytes waiting are those
of the start followed by the bytes the emitting commands pushed, in order: none duplicated, lost or reordered. -/
def Obligations.OutputBytesKeepTheirOrder : Prop :=
  (∀ (es : List HostEvent) (s t : State), serveAll es s = .next t →
    (∀ e ∈ es, discardsOut s.params e = false) →
    t.received ++ t.out = s.received ++ s.out ++ emittedAll es s) ∧
  (∀ (e : HostEvent) (s t : State), serve e s = .next t → discardsOut s.params e = true →
    t.out = [] ∧ t.received = s.received)

/-- R63: `OutPush` is all or nothing, and a command that calls it performs its other writes only if it succeeds. -/
def Obligations.EmissionsAreAllOrNothing : Prop :=
  (∀ (bytes : List Byte) (s : State), s.params.outDepth < s.out.length + bytes.length →
    outPush bytes s = none ∧ ∀ others, emitThen bytes others s = raiseError .ovf s) ∧
  (∀ (bytes : List Byte) (s : State), s.out.length + bytes.length ≤ s.params.outDepth →
    outPush bytes s = some { s with out := s.out ++ bytes } ∧
    ∀ others, emitThen bytes others s = others { s with out := s.out ++ bytes }) ∧
  (∀ (e : HostEvent) (s t : State), serve e s = .next t → t.errors = s.errors ++ [.ovf] →
    t.out = s.out ∧ t.crc = s.crc ∧ emittedBytes e s = [])

/-! ### Host programs -/

/-- The assembler refuses an operand its format cannot hold rather than truncating it, and gives every command its own
word (R87; that a number of more than 32 bits is refused too is the model's reading, log 13). -/
def Obligations.AssemblerRefusesWideOperands : Prop :=
  (∀ (p : Params) (n : Nat), 255 < n →
    assembleLine p (.mnemonic .pckByte n) = none ∧ assembleLine p (.mnemonic .crcByte n) = none) ∧
  (∀ (p : Params) (n : Nat), 65535 < n → assembleLine p (.mnemonic .hdrEmit n) = none) ∧
  (∀ (p : Params) (i : Instr), assembleLine p (.mnemonic (opOf i) i.operand) = some (commandWrite p (encode i))) ∧
  (∀ (p : Params) (o : Op) (n : Nat) (e : HostEvent), assembleLine p (.mnemonic o n) = some e →
    ∃ i, opOf i = o ∧ i.operand = n ∧ commandAt p e = some i)

/-- The line `frame.hdr i, b0, ..., bn-1` assembles and, run, appends the header of transmission position `i` whose
checksum byte is the page checksum of exactly those bytes (R88, R104, R162). -/
def Obligations.FrameHdrLineEmitsThePageHeader : Prop :=
  ∀ (s : State) (half : Half) (index : Byte) (bytes : List Byte), s.resetIn = false →
    pageIndex s.hdrTotal half s.startOffset s.crypt = some index → s.out.length + 6 ≤ s.params.outDepth →
    ∃ es, assemble s.params [.frameHdr half.toNat (bytes.map BitVec.toNat)] = some es ∧
      serveAll es s = .next { s with
        acc := pckRun 0x00D3 bytes,
        out := s.out ++ [0xDE, 0xAD, 0xBE, 0xEF, index, pageChecksum bytes] }

/-- The line `drain n` returns the first `n` bytes of `OUT` in order, each with VALID = 1, and leaves the rest
(R34, R60, R88). -/
def Obligations.DrainReceivesTheBytesInOrder : Prop :=
  ∀ (s : State) (n : Nat), s.resetIn = false → n ≤ s.out.length →
    ∃ es, assemble s.params [.drain n] = some es ∧
      serveAll es s = .next { s with
        out := s.out.drop n, received := s.received ++ s.out.take n,
        reads := s.reads ++ (s.out.take n).map (fun b => BitVec.ofNat 32 (256 + b.toNat)) }

/-- The lines `hdr.cfg`, `wake.cfg` and `clr.status` with operands that fit their registers assemble and, run, leave
exactly those values in the configuration and `STATUS` clear (R30 to R33, R88). -/
def Obligations.ConfigurationLinesConfigureTheBlock : Prop :=
  ∀ (s : State) (total reg val : Half) (offset addr : Byte) (crypt : Bool), s.resetIn = false →
    ∃ es, assemble s.params [.hdrCfg total.toNat offset.toNat crypt.toNat,
        .wakeCfg addr.toNat reg.toNat val.toNat, .clrStatus] = some es ∧
      serveAll es s = .next { s with
        hdrTotal := total, startOffset := offset, crypt := crypt, wakeAddr := addr, wakeReg := reg, wakeVal := val,
        status := 0 }

/-- The line `crc.seq b0, ..., bn-1` and then `crc.emit` assemble and, run, append the command checksum of exactly
those bytes, low byte first (R88, R124, R125). -/
def Obligations.CrcSeqLineEmitsTheCommandChecksum : Prop :=
  ∀ (s : State) (bytes : List Byte), s.resetIn = false → s.out.length + 2 ≤ s.params.outDepth →
    ∃ es, assemble s.params [.crcSeq (bytes.map BitVec.toNat), .basic (.mnemonic .crcEmit 0)] = some es ∧
      serveAll es s = .next { s with
        crc := commandChecksum bytes,
        out := s.out ++ [(commandChecksum bytes).extractLsb' 0 8, (commandChecksum bytes).extractLsb' 8 8] }
end

