-- ==== Sys2Proof/Laws/Decode.lean ====
section
/-! SUPPORT. The command word as its fields, what the masks of R83 keep of a word, and the one lemma about decoding:
a word that encodes a row decodes to that row's command. -/

namespace Sys2Proof

/-- A word is its upper 24 bits and its `BYTE`. -/
theorem word_eq_append_byte (w : Word) : w = w.extractLsb' 8 24 ++ byteOperand w := by
  ext k hk
  rw [BitVec.getElem_append]
  interval_cases k <;> simp [byteOperand, BitVec.getLsbD_eq_getElem]

/-- A word is its upper 16 bits and its `HALF`. -/
theorem word_eq_append_half (w : Word) : w = w.extractLsb' 16 16 ++ halfOperand w := by
  ext k hk
  rw [BitVec.getElem_append]
  interval_cases k <;> simp [halfOperand, BitVec.getLsbD_eq_getElem]

/-- The mask of format B keeps the upper 24 bits. -/
theorem and_mask_b (w : Word) : w &&& 0xFFFFFF00 = w.extractLsb' 8 24 ++ (0 : BitVec 8) := by
  ext k hk
  rw [BitVec.getElem_append]
  interval_cases k <;> simp [BitVec.getLsbD_eq_getElem]

/-- The mask of format H keeps the upper 16 bits. -/
theorem and_mask_h (w : Word) : w &&& 0xFFFF0000 = w.extractLsb' 16 16 ++ (0 : BitVec 16) := by
  ext k hk
  rw [BitVec.getElem_append]
  interval_cases k <;> simp [BitVec.getLsbD_eq_getElem]

theorem append_byte_upper (u : BitVec 24) (b : Byte) : (u ++ b).extractLsb' 8 24 = u := by
  ext k hk
  simp only [BitVec.getElem_extractLsb', BitVec.getLsbD_append]
  rw [if_neg (by omega), Nat.add_sub_cancel_left, BitVec.getLsbD_eq_getElem hk]

theorem append_byte_lower (u : BitVec 24) (b : Byte) : (u ++ b).extractLsb' 0 8 = b := by
  ext k hk
  simp only [BitVec.getElem_extractLsb', BitVec.getLsbD_append, Nat.zero_add]
  rw [if_pos hk, BitVec.getLsbD_eq_getElem hk]

theorem append_half_upper (u h : BitVec 16) : (u ++ h).extractLsb' 16 16 = u := by
  ext k hk
  simp only [BitVec.getElem_extractLsb', BitVec.getLsbD_append]
  rw [if_neg (by omega), Nat.add_sub_cancel_left, BitVec.getLsbD_eq_getElem hk]

theorem append_half_lower (u h : BitVec 16) : (u ++ h).extractLsb' 0 16 = h := by
  ext k hk
  simp only [BitVec.getElem_extractLsb', BitVec.getLsbD_append, Nat.zero_add]
  rw [if_pos hk, BitVec.getLsbD_eq_getElem hk]

/-! ### The words of the commands -/

theorem encode_pckByte (b : Byte) : encode (.pckByte b) = (0x020000 : BitVec 24) ++ b := by
  have hb := b.isLt
  apply BitVec.eq_of_toNat_eq
  simp [encode, encodeOp, opOf, opcOf, Instr.operand, Nat.mod_eq_of_lt (show b.toNat < 4294967296 by omega)]
  exact (BitVec.toNat_append (0x020000 : BitVec 24) b).symm

theorem encode_crcByte (b : Byte) : encode (.crcByte b) = (0x110000 : BitVec 24) ++ b := by
  have hb := b.isLt
  apply BitVec.eq_of_toNat_eq
  simp [encode, encodeOp, opOf, opcOf, Instr.operand, Nat.mod_eq_of_lt (show b.toNat < 4294967296 by omega)]
  exact (BitVec.toNat_append (0x110000 : BitVec 24) b).symm

theorem encode_hdrEmit (h : Half) : encode (.hdrEmit h) = (0x3000 : BitVec 16) ++ h := by
  have hb := h.isLt
  apply BitVec.eq_of_toNat_eq
  simp [encode, encodeOp, opOf, opcOf, Instr.operand, Nat.mod_eq_of_lt (show h.toNat < 4294967296 by omega)]
  exact (BitVec.toNat_append (0x3000 : BitVec 16) h).symm

/-! ### Rows -/

/-- In format N the word is the match; in format B its upper 24 bits are the match's; in format H its upper 16. -/
theorem encodesRow_iff (w : Word) (o : Op) : encodesRow w o = true ↔
    match formatOf o with
    | .n => w = matchOf o
    | .b => w.extractLsb' 8 24 = (matchOf o).extractLsb' 8 24
    | .h => w.extractLsb' 16 16 = (matchOf o).extractLsb' 16 16 := by
  have hb (u v : BitVec 24) : u ++ (0 : BitVec 8) = v ++ (0 : BitVec 8) ↔ u = v :=
    ⟨fun h => by rw [← append_byte_upper u 0, h, append_byte_upper], fun h => by rw [h]⟩
  have hh (u v : BitVec 16) : u ++ (0 : BitVec 16) = v ++ (0 : BitVec 16) ↔ u = v :=
    ⟨fun h => by rw [← append_half_upper u 0, h, append_half_upper], fun h => by rw [h]⟩
  have hn (v : Word) : v &&& 0xFFFFFFFF = v := BitVec.and_allOnes
  cases o <;> simp only [encodesRow, formatOf, maskOf, matchOf, beq_iff_eq, hn]
  · rw [and_mask_b]; exact hb _ 0x020000
  · rw [and_mask_b]; exact hb _ 0x110000
  · rw [and_mask_h]; exact hh _ 0x3000

/-- A word that encodes a row has the row's opcode. -/
theorem opcField_of_encodesRow {w : Word} {o : Op} (h : encodesRow w o = true) : opcField w = opcOf o := by
  have hb (v : Word) : opcField v = (v.extractLsb' 8 24).extractLsb' 16 8 := by
    ext k hk; simp [opcField, BitVec.getElem_extractLsb', BitVec.getLsbD_extractLsb', ← Nat.add_assoc]; omega
  have hh (v : Word) : opcField v = (v.extractLsb' 16 16).extractLsb' 8 8 := by
    ext k hk; simp [opcField, BitVec.getElem_extractLsb', BitVec.getLsbD_extractLsb', ← Nat.add_assoc]; omega
  rw [encodesRow_iff] at h
  cases o
  case pckByte => rw [hb, h]; rfl
  case crcByte => rw [hb, h]; rfl
  case hdrEmit => rw [hh, h]; rfl
  all_goals (simp only [formatOf] at h; rw [h]; rfl)

/-- A word encodes a row when its opcode is the row's and the bits its format requires to be 0 are 0 (R80, R81). -/
theorem encodesRow_iff_fields (w : Word) (o : Op) : encodesRow w o = true ↔ opcField w = opcOf o ∧
    match formatOf o with
    | .n => w.extractLsb' 0 24 = 0
    | .b => w.extractLsb' 8 16 = 0
    | .h => w.extractLsb' 16 8 = 0 := by
  have hw := w.isLt
  have ho : (opcField w).toNat = w.toNat / 2 ^ 24 := by simp [opcField, Nat.shiftRight_eq_div_pow]; omega
  rw [encodesRow_iff]
  cases o <;> simp only [formatOf, matchOf, ← BitVec.toNat_inj, ho, opcOf, BitVec.reduceToNat,
    BitVec.extractLsb'] <;> simp <;> omega

theorem opcOf_injective {o o' : Op} (h : opcOf o = opcOf o') : o = o' := by
  cases o <;> cases o' <;> first | rfl | (revert h; decide)

theorem mem_opcodeMap (o : Op) : o ∈ opcodeMap := by cases o <;> decide

/-- A word that encodes a row decodes to that row's command. -/
theorem decode_of_encodesRow {w : Word} {o : Op} (h : encodesRow w o = true) :
    decode w = .command (commandOf w o) := by
  obtain ⟨o', ho'⟩ := Option.isSome_iff_exists.mp (List.find?_isSome.mpr ⟨o, mem_opcodeMap o, h⟩)
  have : o' = o :=
    opcOf_injective ((opcField_of_encodesRow (List.find?_some ho')).symm.trans (opcField_of_encodesRow h))
  simp only [decode, ho', this]

/-- A word decodes to a command only through the row it encodes. -/
theorem encodesRow_of_decode {w : Word} {i : Instr} (h : decode w = .command i) :
    ∃ o, encodesRow w o = true ∧ commandOf w o = i := by
  unfold decode at h
  split at h
  · rename_i o ho
    exact ⟨o, List.find?_some ho, by simpa using h⟩
  · split at h <;> simp at h

/-- Decoding by cases: the word's one row, or the reason it is illegal. -/
theorem decode_cases (w : Word) :
    (∃ o, encodesRow w o = true ∧ decode w = .command (commandOf w o)) ∨
    ((∀ o, encodesRow w o = false) ∧ decode w = .illegal
      (if opcodeMap.any (fun o => opcOf o == opcField w) then .mustBeZeroBitSet else .unassignedOpcode)) := by
  unfold decode
  split
  · rename_i o ho
    exact .inl ⟨o, List.find?_some ho, rfl⟩
  · rename_i h
    refine .inr ⟨fun o => by simpa using List.find?_eq_none.mp h o (mem_opcodeMap o), ?_⟩
    split <;> rfl

end Sys2Proof
end

