-- ==== Sys2Proof/Laws/State.lean ====
section
/-! SUPPORT. What each state update of the shared operations does to each field, so that no later proof unfolds it. -/

namespace Sys2Proof.Machine

variable (e : ErrCode) (v w : Word) (s : State)

@[simp] theorem raiseError_acc : (raiseError e s).acc = s.acc := rfl
@[simp] theorem raiseError_crc : (raiseError e s).crc = s.crc := rfl
@[simp] theorem raiseError_hdrTotal : (raiseError e s).hdrTotal = s.hdrTotal := rfl
@[simp] theorem raiseError_startOffset : (raiseError e s).startOffset = s.startOffset := rfl
@[simp] theorem raiseError_crypt : (raiseError e s).crypt = s.crypt := rfl
@[simp] theorem raiseError_wakeAddr : (raiseError e s).wakeAddr = s.wakeAddr := rfl
@[simp] theorem raiseError_wakeReg : (raiseError e s).wakeReg = s.wakeReg := rfl
@[simp] theorem raiseError_wakeVal : (raiseError e s).wakeVal = s.wakeVal := rfl
@[simp] theorem raiseError_status : (raiseError e s).status = statusAfterError e s.status := rfl
@[simp] theorem raiseError_out : (raiseError e s).out = s.out := rfl
@[simp] theorem raiseError_params : (raiseError e s).params = s.params := rfl
@[simp] theorem raiseError_resetIn : (raiseError e s).resetIn = s.resetIn := rfl
@[simp] theorem raiseError_pending : (raiseError e s).pending = s.pending := rfl
@[simp] theorem raiseError_reads : (raiseError e s).reads = s.reads := rfl
@[simp] theorem raiseError_received : (raiseError e s).received = s.received := rfl
@[simp] theorem raiseError_errors : (raiseError e s).errors = s.errors ++ [e] := rfl

@[simp] theorem clearStatus_acc : (clearStatus v s).acc = s.acc := rfl
@[simp] theorem clearStatus_crc : (clearStatus v s).crc = s.crc := rfl
@[simp] theorem clearStatus_hdrTotal : (clearStatus v s).hdrTotal = s.hdrTotal := rfl
@[simp] theorem clearStatus_startOffset : (clearStatus v s).startOffset = s.startOffset := rfl
@[simp] theorem clearStatus_crypt : (clearStatus v s).crypt = s.crypt := rfl
@[simp] theorem clearStatus_wakeAddr : (clearStatus v s).wakeAddr = s.wakeAddr := rfl
@[simp] theorem clearStatus_wakeReg : (clearStatus v s).wakeReg = s.wakeReg := rfl
@[simp] theorem clearStatus_wakeVal : (clearStatus v s).wakeVal = s.wakeVal := rfl
@[simp] theorem clearStatus_status : (clearStatus v s).status = statusAfterWrite v s.status := rfl
@[simp] theorem clearStatus_out : (clearStatus v s).out = s.out := rfl
@[simp] theorem clearStatus_params : (clearStatus v s).params = s.params := rfl
@[simp] theorem clearStatus_resetIn : (clearStatus v s).resetIn = s.resetIn := rfl
@[simp] theorem clearStatus_pending : (clearStatus v s).pending = s.pending := rfl
@[simp] theorem clearStatus_reads : (clearStatus v s).reads = s.reads := rfl
@[simp] theorem clearStatus_received : (clearStatus v s).received = s.received := rfl
@[simp] theorem clearStatus_errors : (clearStatus v s).errors = s.errors := rfl

@[simp] theorem recordRead_acc : (recordRead v s).acc = s.acc := rfl
@[simp] theorem recordRead_crc : (recordRead v s).crc = s.crc := rfl
@[simp] theorem recordRead_hdrTotal : (recordRead v s).hdrTotal = s.hdrTotal := rfl
@[simp] theorem recordRead_startOffset : (recordRead v s).startOffset = s.startOffset := rfl
@[simp] theorem recordRead_crypt : (recordRead v s).crypt = s.crypt := rfl
@[simp] theorem recordRead_wakeAddr : (recordRead v s).wakeAddr = s.wakeAddr := rfl
@[simp] theorem recordRead_wakeReg : (recordRead v s).wakeReg = s.wakeReg := rfl
@[simp] theorem recordRead_wakeVal : (recordRead v s).wakeVal = s.wakeVal := rfl
@[simp] theorem recordRead_status : (recordRead v s).status = s.status := rfl
@[simp] theorem recordRead_out : (recordRead v s).out = s.out := rfl
@[simp] theorem recordRead_params : (recordRead v s).params = s.params := rfl
@[simp] theorem recordRead_resetIn : (recordRead v s).resetIn = s.resetIn := rfl
@[simp] theorem recordRead_pending : (recordRead v s).pending = s.pending := rfl
@[simp] theorem recordRead_reads : (recordRead v s).reads = s.reads ++ [v] := rfl
@[simp] theorem recordRead_received : (recordRead v s).received = s.received := rfl
@[simp] theorem recordRead_errors : (recordRead v s).errors = s.errors := rfl

@[simp] theorem resetBlock_acc : (resetBlock s).acc = resetAcc := rfl
@[simp] theorem resetBlock_crc : (resetBlock s).crc = resetCrc := rfl
@[simp] theorem resetBlock_hdrTotal : (resetBlock s).hdrTotal = resetHdrTotal := rfl
@[simp] theorem resetBlock_startOffset : (resetBlock s).startOffset = resetStartOffset := rfl
@[simp] theorem resetBlock_crypt : (resetBlock s).crypt = resetCrypt := rfl
@[simp] theorem resetBlock_wakeAddr : (resetBlock s).wakeAddr = resetWakeAddr := rfl
@[simp] theorem resetBlock_wakeReg : (resetBlock s).wakeReg = resetWakeReg := rfl
@[simp] theorem resetBlock_wakeVal : (resetBlock s).wakeVal = resetWakeVal := rfl
@[simp] theorem resetBlock_status : (resetBlock s).status = resetStatus := rfl
@[simp] theorem resetBlock_out : (resetBlock s).out = resetOut := rfl
@[simp] theorem resetBlock_params : (resetBlock s).params = s.params := rfl
@[simp] theorem resetBlock_resetIn : (resetBlock s).resetIn = s.resetIn := rfl
@[simp] theorem resetBlock_pending : (resetBlock s).pending = s.pending := rfl
@[simp] theorem resetBlock_reads : (resetBlock s).reads = s.reads := rfl
@[simp] theorem resetBlock_received : (resetBlock s).received = s.received := rfl
@[simp] theorem resetBlock_errors : (resetBlock s).errors = s.errors := rfl

@[simp] theorem queueCommand_acc : (queueCommand w s).acc = s.acc := rfl
@[simp] theorem queueCommand_crc : (queueCommand w s).crc = s.crc := rfl
@[simp] theorem queueCommand_hdrTotal : (queueCommand w s).hdrTotal = s.hdrTotal := rfl
@[simp] theorem queueCommand_startOffset : (queueCommand w s).startOffset = s.startOffset := rfl
@[simp] theorem queueCommand_crypt : (queueCommand w s).crypt = s.crypt := rfl
@[simp] theorem queueCommand_wakeAddr : (queueCommand w s).wakeAddr = s.wakeAddr := rfl
@[simp] theorem queueCommand_wakeReg : (queueCommand w s).wakeReg = s.wakeReg := rfl
@[simp] theorem queueCommand_wakeVal : (queueCommand w s).wakeVal = s.wakeVal := rfl
@[simp] theorem queueCommand_status : (queueCommand w s).status = s.status := rfl
@[simp] theorem queueCommand_out : (queueCommand w s).out = s.out := rfl
@[simp] theorem queueCommand_params : (queueCommand w s).params = s.params := rfl
@[simp] theorem queueCommand_resetIn : (queueCommand w s).resetIn = false := rfl
@[simp] theorem queueCommand_pending : (queueCommand w s).pending = commandWrite s.params w :: s.pending := rfl
@[simp] theorem queueCommand_reads : (queueCommand w s).reads = s.reads := rfl
@[simp] theorem queueCommand_received : (queueCommand w s).received = s.received := rfl
@[simp] theorem queueCommand_errors : (queueCommand w s).errors = s.errors := rfl

end Sys2Proof.Machine
end

