-- ==== Sys2Proof/Laws/Ops.lean ====
section
/-! SUPPORT. What the shared operations can do, said once: `STATUS` bits, the push, the pop, the window, the register
an access selects. -/

namespace Sys2Proof.Machine

/-! ### STATUS bits -/

theorem hasStatus_statusAfterError (st : BitVec 4) (c d : ErrCode) :
    hasStatus (statusAfterError c st) d = (d == c || hasStatus st d) := by
  cases c <;> cases d <;> revert st <;> decide

theorem hasStatus_statusAfterWrite (st : BitVec 4) (v : Word) (d : ErrCode) :
    hasStatus (statusAfterWrite v st) d = (hasStatus st d && !v.getLsbD (codeOf d)) := by
  cases d <;> simp [hasStatus, statusAfterWrite, codeOf]

theorem statusAfterError_of_hasStatus {st : BitVec 4} {c : ErrCode} (h : hasStatus st c = true) :
    statusAfterError c st = st := by
  revert h st; cases c <;> decide

theorem hasStatus_resetStatus (c : ErrCode) : hasStatus resetStatus c = false := by cases c <;> rfl

/-! ### The push of an emitting command -/

theorem outPush_of_fits {bytes : List Byte} {s : State} (h : s.out.length + bytes.length ≤ s.params.outDepth) :
    outPush bytes s = some { s with out := s.out ++ bytes } := by
  simp [outPush, fits, h]

theorem outPush_of_not_fits {bytes : List Byte} {s : State} (h : s.params.outDepth < s.out.length + bytes.length) :
    outPush bytes s = none := by
  simp [outPush, fits, h]

theorem emitThen_of_fits {bytes : List Byte} {others : State → State} {s : State}
    (h : s.out.length + bytes.length ≤ s.params.outDepth) :
    emitThen bytes others s = others { s with out := s.out ++ bytes } := by
  simp only [emitThen, outPush_of_fits h]

theorem emitThen_of_not_fits {bytes : List Byte} {others : State → State} {s : State}
    (h : s.params.outDepth < s.out.length + bytes.length) :
    emitThen bytes others s = raiseError .ovf s := by
  simp only [emitThen, outPush_of_not_fits h]

/-- An emitting command either appends all its bytes or raises `OVF`. -/
theorem emitThen_cases (bytes : List Byte) (others : State → State) (s : State) :
    (s.out.length + bytes.length ≤ s.params.outDepth ∧
      emitThen bytes others s = others { s with out := s.out ++ bytes }) ∨
    (s.params.outDepth < s.out.length + bytes.length ∧ emitThen bytes others s = raiseError .ovf s) :=
  (le_or_gt _ _).imp (fun h => ⟨h, emitThen_of_fits h⟩) (fun h => ⟨h, emitThen_of_not_fits h⟩)

/-! ### The pop -/

/-- A pop of `OUT` moves the head to the received bytes, or does nothing. -/
theorem popOut_cases (s : State) :
    (s.out = [] ∧ popOut s = s) ∨
    ∃ b rest, s.out = b :: rest ∧ popOut s = { s with out := rest, received := s.received ++ [b] } := by
  unfold popOut
  split
  · exact .inl ⟨‹_›, rfl⟩
  · exact .inr ⟨_, _, ‹_›, rfl⟩

/-- A pop keeps the sequence of bytes received and waiting. -/
theorem popOut_stream (s : State) : (popOut s).received ++ (popOut s).out = s.received ++ s.out := by
  obtain ⟨-, h⟩ | ⟨b, rest, ho, h⟩ := popOut_cases s
  · rw [h]
  · rw [h, ho]; simp

theorem popOut_length_le (s : State) : (popOut s).out.length ≤ s.out.length := by
  obtain ⟨-, h⟩ | ⟨b, rest, ho, h⟩ := popOut_cases s
  · rw [h]
  · rw [h, ho]; simp

/-! ### The window -/

theorem windowOffset_eq_some {p : Params} {addr offset : Nat} :
    windowOffset p addr = some offset ↔ addr = p.blockBase + offset ∧ offset < 64 := by
  unfold windowOffset
  split
  · simp only [Option.some.injEq]; omega
  · simp only [reduceCtorEq, false_iff]; omega

theorem windowOffset_eq_none {p : Params} {addr : Nat} :
    windowOffset p addr = none ↔ addr < p.blockBase ∨ p.blockBase + 64 ≤ addr := by
  unfold windowOffset
  split
  · simp only [reduceCtorEq, false_iff]; omega
  · simp only [true_iff]; omega

@[simp] theorem windowOffset_base_add {p : Params} {offset : Nat} (h : offset < 64) :
    windowOffset p (p.blockBase + offset) = some offset :=
  windowOffset_eq_some.mpr ⟨rfl, h⟩

theorem offsetOf_lt (r : Reg) : offsetOf r < 64 := by cases r <;> decide

theorem offsetOf_injective {r q : Reg} (h : offsetOf r = offsetOf q) : r = q := by
  cases r <;> cases q <;> first | rfl | (revert h; decide)

/-- A 4-byte access at a register's offset selects it. -/
@[simp] theorem selectReg_offsetOf (r : Reg) : selectReg (offsetOf r) 4 = some r := by cases r <;> rfl

/-- The register an access selects is the one at its offset, and the access is 4 bytes wide. -/
theorem selectReg_eq_some {offset width : Nat} {r : Reg} :
    selectReg offset width = some r ↔ width = 4 ∧ offset = offsetOf r := by
  constructor
  · intro h
    unfold selectReg at h
    split at h
    · exact ⟨‹_›, (by simpa using List.find?_some h : offsetOf r = offset).symm⟩
    · simp at h
  · rintro ⟨rfl, rfl⟩; exact selectReg_offsetOf r

/-- The address errors of R55. -/
theorem selectReg_eq_none {offset width : Nat} :
    selectReg offset width = none ↔ width ≠ 4 ∨ offset % 4 ≠ 0 ∨ 0x2C ≤ offset := by
  constructor
  · intro h
    by_contra hc
    simp only [not_or, ne_eq, not_not, not_le] at hc
    obtain ⟨rfl, h4, hlt⟩ := hc
    have hr : ∃ r : Reg, offset = offsetOf r := by
      interval_cases offset <;> simp at h4
      exacts [⟨.cmd, rfl⟩, ⟨.status, rfl⟩, ⟨.pckAcc, rfl⟩, ⟨.crcVal, rfl⟩, ⟨.hdrTotal, rfl⟩, ⟨.hdrCfg, rfl⟩,
        ⟨.wakeAddr, rfl⟩, ⟨.wakeReg, rfl⟩, ⟨.wakeVal, rfl⟩, ⟨.outData, rfl⟩, ⟨.outLevel, rfl⟩]
    obtain ⟨r, rfl⟩ := hr
    simp at h
  · intro h
    rw [Option.eq_none_iff_forall_ne_some]
    intro r hr
    obtain ⟨rfl, rfl⟩ := selectReg_eq_some.mp hr
    revert h; cases r <;> decide

end Sys2Proof.Machine
end

