-- ==== Sys2Proof/Laws/Exec.lean ====
section
/-! SUPPORT. What a command can do, said once: `exec` answers a next state for every command in every state, and that
state differs from the first only as its rule says. -/

namespace Sys2Proof.Machine

@[simp] theorem littleEndian_length (v : Half) : (littleEndian v).length = 2 := rfl
@[simp] theorem wakeCommand_length (s : State) : (wakeCommand s).length = 8 := rfl
@[simp] theorem headerBytes_length (index checksum : Byte) : (headerBytes index checksum).length = 6 := rfl

/-- The header's bytes spelled out (R53, R162). -/
theorem headerBytes_eq (index checksum : Byte) :
    headerBytes index checksum = [0xDE, 0xAD, 0xBE, 0xEF, index, checksum] := rfl

/-- Every way a command can change the state. -/
theorem exec_cases (i : Instr) (s : State) :
    (∃ acc, (i = .pckInit ∧ acc = pckSeed ∨ ∃ b, i = .pckByte b ∧ acc = pckStep s.acc b) ∧
      exec i s = .next { s with acc := acc }) ∨
    (∃ crc, (i = .crcInit ∧ crc = crcInitial ∨ ∃ b, i = .crcByte b ∧ crc = crcStep s.crc b) ∧
      exec i s = .next { s with crc := crc }) ∨
    (i = .crcEmit ∧ s.out.length + 2 ≤ s.params.outDepth ∧
      exec i s = .next { s with out := s.out ++ littleEndian s.crc }) ∨
    (i = .crcEmit ∧ s.params.outDepth < s.out.length + 2 ∧ exec i s = .next (raiseError .ovf s)) ∨
    (i = .wakeEmit ∧ s.out.length + 8 ≤ s.params.outDepth ∧
      exec i s = .next { s with out := s.out ++ wakeCommand s, crc := wakeChecksum s }) ∨
    (i = .wakeEmit ∧ s.params.outDepth < s.out.length + 8 ∧ exec i s = .next (raiseError .ovf s)) ∨
    (∃ half, i = .hdrEmit half ∧ pageIndex s.hdrTotal half s.startOffset s.crypt = none ∧
      exec i s = .next (raiseError .idx s)) ∨
    (∃ half index, i = .hdrEmit half ∧ pageIndex s.hdrTotal half s.startOffset s.crypt = some index ∧
      s.out.length + 6 ≤ s.params.outDepth ∧
      exec i s = .next { s with out := s.out ++ headerBytes index (lowByte s.acc) }) ∨
    (∃ half index, i = .hdrEmit half ∧ pageIndex s.hdrTotal half s.startOffset s.crypt = some index ∧
      s.params.outDepth < s.out.length + 6 ∧ exec i s = .next (raiseError .ovf s)) ∨
    (i = .outClear ∧ exec i s = .next { s with out := [] }) ∨
    (i = .blkReset ∧ exec i s = .next (resetBlock s)) := by
  cases i with
  | pckInit => exact .inl ⟨_, .inl ⟨rfl, rfl⟩, rfl⟩
  | pckByte b => exact .inl ⟨_, .inr ⟨b, rfl, rfl⟩, rfl⟩
  | crcInit => exact .inr (.inl ⟨_, .inl ⟨rfl, rfl⟩, rfl⟩)
  | crcByte b => exact .inr (.inl ⟨_, .inr ⟨b, rfl, rfl⟩, rfl⟩)
  | crcEmit =>
    obtain ⟨h, e⟩ | ⟨h, e⟩ := emitThen_cases (littleEndian s.crc) id s
    · exact .inr (.inr (.inl ⟨rfl, h, congrArg _ e⟩))
    · exact .inr (.inr (.inr (.inl ⟨rfl, h, congrArg _ e⟩)))
  | wakeEmit =>
    obtain ⟨h, e⟩ | ⟨h, e⟩ :=
      emitThen_cases (wakeCommand s) (fun pushed => { pushed with crc := wakeChecksum s }) s
    · exact .inr (.inr (.inr (.inr (.inl ⟨rfl, h, congrArg _ e⟩))))
    · exact .inr (.inr (.inr (.inr (.inr (.inl ⟨rfl, h, congrArg _ e⟩)))))
  | hdrEmit half =>
    cases hp : pageIndex s.hdrTotal half s.startOffset s.crypt with
    | none => simp [exec, execHdrEmit, hp]
    | some index =>
      obtain ⟨h, e⟩ | ⟨h, e⟩ := emitThen_cases (headerBytes index (lowByte s.acc)) id s
      · simp only [headerBytes_length] at h
        simp [exec, execHdrEmit, hp, e, h]
      · simp only [headerBytes_length] at h
        simp [exec, execHdrEmit, hp, e, h]
  | outClear => simp [exec, execOutClear]
  | blkReset => simp [exec, execBlkReset]

/-- Every command completes in every state, and leaves the parameters, the reset input, the host's queue and the
observation of reads as they were. -/
theorem exec_next (i : Instr) (s : State) :
    ∃ t, exec i s = .next t ∧ t.params = s.params ∧ t.resetIn = s.resetIn ∧ t.pending = s.pending ∧
      t.reads = s.reads ∧ t.received = s.received := by
  obtain ⟨_, -, h⟩ | ⟨_, -, h⟩ | ⟨-, -, h⟩ | ⟨-, -, h⟩ | ⟨-, -, h⟩ | ⟨-, -, h⟩ | ⟨_, -, -, h⟩ | ⟨_, _, -, -, -, h⟩ |
    ⟨_, _, -, -, -, h⟩ | ⟨-, h⟩ | ⟨-, h⟩ := exec_cases i s <;>
  exact ⟨_, h, rfl, rfl, rfl, rfl, rfl⟩

/-! ### A meaning does not look at the host's queue -/

/-- An outcome with the host's queue replaced. -/
def withPending (p : List HostEvent) : Result → Result
  | .next t => .next { t with pending := p }
  | .fault f => .fault f
  | .refused r => .refused r

theorem emitThen_pending (bytes : List Byte) (others : State → State) (s : State) (p : List HostEvent)
    (ho : ∀ u : State, others { u with pending := p } = { others u with pending := p }) :
    emitThen bytes others { s with pending := p } = { emitThen bytes others s with pending := p } := by
  obtain ⟨h, e⟩ | ⟨h, e⟩ := emitThen_cases bytes others s
  · rw [e, emitThen_of_fits (s := { s with pending := p }) h]
    exact ho { s with out := s.out ++ bytes }
  · rw [e, emitThen_of_not_fits (s := { s with pending := p }) h]
    rfl

theorem exec_pending (i : Instr) (s : State) (p : List HostEvent) :
    exec i { s with pending := p } = withPending p (exec i s) := by
  cases i with
  | crcEmit => exact congrArg _ (emitThen_pending _ id s p fun _ => rfl)
  | wakeEmit => exact congrArg _ (emitThen_pending _ _ s p fun _ => rfl)
  | hdrEmit half =>
    simp only [exec, execHdrEmit]
    split
    · rfl
    · exact congrArg _ (emitThen_pending _ id s p fun _ => rfl)
  | _ => rfl

end Sys2Proof.Machine
end

