-- ==== Sys2Proof/Laws/Bus.lean ====
section
/-! SUPPORT. What one event of the host can do, said once (`serve_cases`), and the same for each register access. -/

namespace Sys2Proof.Machine

variable {s t : State}

/-! ### Accesses of a mapped register -/

theorem serve_regRead (h : s.resetIn = false) (r : Reg) :
    serve (regRead s.params r) s = .next (readReg r s) := by
  simp [serve, regRead, accessWindow, h, windowOffset_base_add (offsetOf_lt r), readWindow]

theorem serve_regWrite (h : s.resetIn = false) {r : Reg} (hr : r ≠ .cmd) (v : Word) :
    serve (regWrite s.params r v) s = .next (writeReg r v s) := by
  simp only [serve, regWrite, accessWindow, h, windowOffset_base_add (offsetOf_lt r), writeWindow,
    selectReg_offsetOf]
  cases r <;> rfl

theorem serve_commandWrite (h : s.resetIn = false) (w : Word) :
    serve (commandWrite s.params w) s = issueCommand w s := by
  have := windowOffset_base_add (p := s.params) (offsetOf_lt .cmd)
  simp [offsetOf] at this
  simp [serve, commandWrite, accessWindow, h, this, writeWindow, show selectReg 0 4 = some .cmd from rfl]

/-- A legal word issues its command. -/
theorem issuesCommand_of_decode {w : Word} {i : Instr} (h : decode w = .command i) : IssuesCommand w i := by
  intro s hs
  rw [serve_commandWrite hs, issueCommand, h]

/-- An illegal word only raises `ILL`. -/
theorem raisesOnlyIll_of_decode {w : Word} {why : Illegal} (h : decode w = .illegal why) : RaisesOnlyIll w := by
  intro s hs
  rw [serve_commandWrite hs, issueCommand, h]

/-- A word of an assigned opcode that does not encode its row only raises `ILL`: the must-be-zero bits are those its
format names (R84). -/
theorem raisesOnlyIll_of_opcode {w : Word} {o : Op} (ho : opcField w = opcOf o) (hn : ¬ encodesRow w o = true) :
    RaisesOnlyIll w := by
  obtain ⟨o', h, -⟩ | ⟨-, h⟩ := decode_cases w
  · exact absurd (opcOf_injective ((opcField_of_encodesRow h).symm.trans ho) ▸ h) hn
  · exact raisesOnlyIll_of_decode h

/-! ### Every event -/

/-- Every way an event of the host can end in a next state. -/
theorem serve_cases {e : HostEvent} (h : serve e s = .next t) :
    (e = .setReset true ∧ t = resetBlock { s with resetIn := true }) ∨
    (e = .setReset false ∧ t = { s with resetIn := false }) ∨
    (s.resetIn = false ∧ ∃ r, e = regRead s.params r ∧ t = readReg r s) ∨
    (s.resetIn = false ∧ ∃ r v, r ≠ .cmd ∧ e = regWrite s.params r v ∧ t = writeReg r v s) ∨
    (s.resetIn = false ∧ ∃ w i, e = commandWrite s.params w ∧ decode w = .command i ∧ exec i s = .next t) ∨
    (s.resetIn = false ∧ ∃ w why, e = commandWrite s.params w ∧ decode w = .illegal why ∧ t = raiseError .ill s) ∨
    (s.resetIn = false ∧ ∃ offset width, offset < 64 ∧ selectReg offset width = none ∧
      e = .read (s.params.blockBase + offset) width ∧ t = recordRead 0 (raiseError .addr s)) ∨
    (s.resetIn = false ∧ ∃ offset width v, offset < 64 ∧ selectReg offset width = none ∧
      e = .write (s.params.blockBase + offset) width v ∧ t = raiseError .addr s) := by
  have hw {addr : Nat} {f : Nat → State → Result} (ha : accessWindow addr f s = .next t) :
      s.resetIn = false ∧ ∃ offset, offset < 64 ∧ addr = s.params.blockBase + offset ∧ f offset s = .next t := by
    unfold accessWindow at ha
    split at ha
    · simp at ha
    · split at ha
      · obtain ⟨h1, h2⟩ := windowOffset_eq_some.mp ‹_›
        exact ⟨by simpa using ‹¬ s.resetIn = true›, _, h2, h1, ha⟩
      · simp at ha
  match e with
  | .setReset true => exact .inl ⟨rfl, by simpa [serve] using h.symm⟩
  | .setReset false => exact .inr (.inl ⟨rfl, by simpa [serve] using h.symm⟩)
  | .read addr width =>
    obtain ⟨hs, offset, hlt, rfl, ha⟩ := hw h
    unfold readWindow at ha
    split at ha
    · obtain ⟨rfl, rfl⟩ := selectReg_eq_some.mp ‹_›
      exact .inr (.inr (.inl ⟨hs, _, rfl, by simpa using ha.symm⟩))
    · exact .inr (.inr (.inr (.inr (.inr (.inr (.inl ⟨hs, _, _, hlt, ‹_›, rfl, by simpa using ha.symm⟩))))))
  | .write addr width v =>
    obtain ⟨hs, offset, hlt, rfl, ha⟩ := hw h
    unfold writeWindow at ha
    split at ha
    · obtain ⟨rfl, rfl⟩ := selectReg_eq_some.mp ‹_›
      unfold issueCommand at ha
      split at ha
      · exact .inr (.inr (.inr (.inr (.inl ⟨hs, v, _, rfl, ‹_›, ha⟩))))
      · exact .inr (.inr (.inr (.inr (.inr (.inl ⟨hs, v, _, rfl, ‹_›, by simpa using ha.symm⟩)))))
    · rename_i r hr _
      obtain ⟨rfl, rfl⟩ := selectReg_eq_some.mp ‹selectReg offset width = some r›
      exact .inr (.inr (.inr (.inl ⟨hs, r, v, ‹_›, rfl, by simpa using ha.symm⟩)))
    · exact .inr (.inr (.inr (.inr (.inr (.inr (.inr ⟨hs, _, _, _, hlt, ‹_›, rfl, by simpa using ha.symm⟩))))))

/-! ### The command an event issues -/

theorem commandAt_commandWrite {p : Params} {w : Word} {i : Instr} (h : decode w = .command i) :
    commandAt p (commandWrite p w) = some i := by
  simp [commandAt, commandWrite, h]

theorem commandAt_illegal {p : Params} {w : Word} {why : Illegal} (h : decode w = .illegal why) :
    commandAt p (commandWrite p w) = none := by
  simp [commandAt, commandWrite, h]

theorem commandAt_regWrite (p : Params) {r : Reg} (hr : r ≠ .cmd) (v : Word) :
    commandAt p (regWrite p r v) = none := by
  cases r <;> simp_all [commandAt, regWrite, offsetOf]

/-- No access with an address error issues a command (R204). -/
theorem commandAt_write_none (p : Params) {offset width : Nat} (h : selectReg offset width = none) (v : Word) :
    commandAt p (.write (p.blockBase + offset) width v) = none := by
  have := selectReg_eq_none.mp h
  simp only [commandAt]
  rw [if_neg (by omega)]

/-! ### What every event keeps, and what it does to the errors -/

/-- Every event keeps the parameters and the rest of the host's queue, and only appends to the values read. -/
theorem serve_keeps {e : HostEvent} (h : serve e s = .next t) :
    t.params = s.params ∧ t.pending = s.pending ∧ ∃ vs, t.reads = s.reads ++ vs := by
  obtain ⟨rfl, rfl⟩ | ⟨rfl, rfl⟩ | ⟨-, r, rfl, rfl⟩ | ⟨-, r, v, -, rfl, rfl⟩ | ⟨-, w, i, rfl, -, hx⟩ |
    ⟨-, w, why, rfl, -, rfl⟩ | ⟨-, o, w, -, -, rfl, rfl⟩ | ⟨-, o, w, v, -, -, rfl, rfl⟩ := serve_cases h
  case inr.inr.inl => obtain ⟨-, e⟩ | ⟨b, rest, -, e⟩ := popOut_cases s <;> cases r <;> simp [readReg, readEffect, e]
  case inr.inr.inr.inl => cases r <;> simp [writeReg]
  case inr.inr.inr.inr.inl =>
    obtain ⟨t', h1, h2, -, h4, h5, -⟩ := exec_next i s
    rw [hx] at h1; cases h1; exact ⟨h2, h4, [], by simp [h5]⟩
  all_goals simp

/-- An event raises no error and sets no `STATUS` bit, or raises exactly one and does nothing else (R201, R204). -/
theorem serve_errors {e : HostEvent} (h : serve e s = .next t) :
    (t.errors = s.errors ∧ ∀ c, hasStatus t.status c = true → hasStatus s.status c = true) ∨
    ∃ c, t.errors = s.errors ++ [c] ∧ t.status = statusAfterError c s.status ∧
      (t = raiseError c s ∨
        c = .addr ∧ (∃ addr width, e = .read addr width) ∧ t = recordRead 0 (raiseError c s)) := by
  obtain ⟨rfl, rfl⟩ | ⟨rfl, rfl⟩ | ⟨-, r, rfl, rfl⟩ | ⟨-, r, v, -, rfl, rfl⟩ | ⟨-, w, i, rfl, -, hx⟩ |
    ⟨-, w, why, rfl, -, rfl⟩ | ⟨-, o, w, -, -, rfl, rfl⟩ | ⟨-, o, w, v, -, -, rfl, rfl⟩ := serve_cases h
  · exact .inl (by simp [hasStatus_resetStatus])
  · exact .inl (by simp)
  · left
    obtain ⟨-, e⟩ | ⟨b, rest, -, e⟩ := popOut_cases s <;> cases r <;> simp [readReg, readEffect, e]
  · left
    cases r <;> simp +contextual [writeReg, hasStatus_statusAfterWrite]
  · obtain ⟨_, -, h⟩ | ⟨_, -, h⟩ | ⟨-, -, h⟩ | ⟨-, -, h⟩ | ⟨-, -, h⟩ | ⟨-, -, h⟩ | ⟨_, -, -, h⟩ | ⟨_, _, -, -, -, h⟩ |
      ⟨_, _, -, -, -, h⟩ | ⟨-, h⟩ | ⟨-, h⟩ := exec_cases i s <;> (rw [h] at hx; cases hx)
    all_goals first
      | exact .inr ⟨_, rfl, rfl, .inl rfl⟩
      | exact .inl ⟨rfl, fun _ h => h⟩
      | exact .inl ⟨rfl, fun c h => by simp [hasStatus_resetStatus] at h⟩
  · exact .inr ⟨_, rfl, rfl, .inl rfl⟩
  · exact .inr ⟨_, rfl, rfl, .inr ⟨rfl, ⟨_, _, rfl⟩, rfl⟩⟩
  · exact .inr ⟨_, rfl, rfl, .inl rfl⟩

/-! ### Runs of events -/

theorem serveAll_append (es fs : List HostEvent) (s : State) :
    serveAll (es ++ fs) s =
      match serveAll es s with
      | .next t => serveAll fs t
      | .fault f => .fault f
      | .refused r => .refused r := by
  induction es generalizing s with
  | nil => rfl
  | cons e es ih =>
    simp only [List.cons_append, serveAll]
    cases serve e s <;> simp [ih]

theorem readReg_pending (r : Reg) (s : State) (p : List HostEvent) :
    readReg r { s with pending := p } = { readReg r s with pending := p } := by
  cases r <;> simp only [readReg, recordRead, readEffect, readValue]
  obtain ⟨h, e⟩ | ⟨b, rest, h, e⟩ := popOut_cases s <;> simp [popOut, h]

theorem writeReg_pending (r : Reg) (v : Word) (s : State) (p : List HostEvent) :
    writeReg r v { s with pending := p } = { writeReg r v s with pending := p } := by
  cases r <;> rfl

/-- What an event does, does not depend on the events still pending. -/
theorem serve_pending (e : HostEvent) (s : State) (p : List HostEvent) :
    serve e { s with pending := p } = withPending p (serve e s) := by
  have hw {addr : Nat} {f : Nat → State → Result} (hf : ∀ o, f o { s with pending := p } = withPending p (f o s)) :
      accessWindow addr f { s with pending := p } = withPending p (accessWindow addr f s) := by
    unfold accessWindow
    split
    · simp_all [withPending]
    · simp_all; split <;> simp_all [withPending]
  match e with
  | .setReset true => rfl
  | .setReset false => rfl
  | .read addr width =>
    refine hw fun o => ?_
    unfold readWindow; split
    · simp [withPending, readReg_pending]
    · rfl
  | .write addr width v =>
    refine hw fun o => ?_
    unfold writeWindow; split
    · unfold issueCommand; split
      · exact exec_pending _ s p
      · rfl
    · simp [withPending, writeReg_pending]
    · rfl

end Sys2Proof.Machine
end

