-- ==== Sys2Proof/Laws/Hdr.lean ====
section
/-! SUPPORT. What `pageIndex` can answer, said once, in exact arithmetic. -/

namespace Sys2Proof.Machine

/-- `pageIndex` has no answer because `i` is no position of the attempt or the index does not fit a byte; else its
answer is the formula's. -/
theorem pageIndex_cases (total i : Half) (offset : Byte) (crypt : Bool) :
    (pageIndex total i offset crypt = none ∧
      (total.toNat ≤ i.toNat ∨
        0xFF < (total.toNat - i.toNat - 1) + offset.toNat + (if crypt then 0x80 else 0))) ∨
    ∃ index : Byte, pageIndex total i offset crypt = some index ∧ i.toNat < total.toNat ∧
      index.toNat = (total.toNat - i.toNat - 1) + offset.toNat + (if crypt then 0x80 else 0) := by
  unfold pageIndex cryptOffset
  split
  · exact .inl ⟨rfl, .inl ‹_›⟩
  · cases crypt <;> simp only [Bool.false_eq_true, if_false, if_true]
    all_goals
      split
      · exact .inl ⟨rfl, .inr (by omega)⟩
      · exact .inr ⟨_, rfl, by omega, by simp; omega⟩

end Sys2Proof.Machine
end

