-- ==== Sys2Proof/Laws/PerInstr.lean ====
section
/-! SUPPORT. The statement made of every command as syntax: it is well formed, and its word carries its opcode, its
must-be-zero byte and its format (R80, R81, R83). One lemma per constructor. -/

namespace Sys2Proof.Laws.EncodedFields

/-- A command is well formed, and its word has its row's opcode and format and `RSV = 0`. -/
def Statement (i : Instr) : Prop :=
  i.WellFormed ∧ i.format = formatOf (opOf i) ∧ opcField (encode i) = opcOf (opOf i) ∧ rsvField (encode i) = 0

/-- A word that encodes a row of format N or B carries the two upper bytes of the row. -/
theorem upper_of_append_byte (u : BitVec 24) (b : Byte) :
    opcField (u ++ b) = u.extractLsb' 16 8 ∧ rsvField (u ++ b) = u.extractLsb' 8 8 := by
  constructor <;> ext k hk <;>
    simp only [opcField, rsvField, BitVec.getElem_extractLsb', BitVec.getLsbD_append] <;>
    rw [if_neg (by omega)] <;> congr 1 <;> omega

theorem upper_of_append_half (u h : BitVec 16) :
    opcField (u ++ h) = u.extractLsb' 8 8 ∧ rsvField (u ++ h) = u.extractLsb' 0 8 := by
  constructor <;> ext k hk <;>
    simp only [opcField, rsvField, BitVec.getElem_extractLsb', BitVec.getLsbD_append] <;>
    rw [if_neg (by omega)] <;> congr 1 <;> omega

theorem byte_fits (b : Byte) : operandFits .b b.toNat = true := by
  have := b.isLt; exact decide_eq_true (show b.toNat ≤ 255 by omega)

theorem half_fits (h : Half) : operandFits .h h.toNat = true := by
  have := h.isLt; exact decide_eq_true (show h.toNat ≤ 65535 by omega)

theorem pckInit : Statement .pckInit := ⟨by decide, rfl, by decide, by decide⟩

theorem pckByte (byte : Byte) : Statement (.pckByte byte) := by
  obtain ⟨h1, h2⟩ := upper_of_append_byte 0x020000 byte
  exact ⟨byte_fits byte, rfl, by rw [encode_pckByte, h1]; simp only [opOf, opcOf]; decide, by rw [encode_pckByte, h2]; decide⟩

theorem crcInit : Statement .crcInit := ⟨by decide, rfl, by decide, by decide⟩

theorem crcByte (byte : Byte) : Statement (.crcByte byte) := by
  obtain ⟨h1, h2⟩ := upper_of_append_byte 0x110000 byte
  exact ⟨byte_fits byte, rfl, by rw [encode_crcByte, h1]; simp only [opOf, opcOf]; decide, by rw [encode_crcByte, h2]; decide⟩

theorem crcEmit : Statement .crcEmit := ⟨by decide, rfl, by decide, by decide⟩

theorem wakeEmit : Statement .wakeEmit := ⟨by decide, rfl, by decide, by decide⟩

theorem hdrEmit (half : Half) : Statement (.hdrEmit half) := by
  obtain ⟨h1, h2⟩ := upper_of_append_half 0x3000 half
  exact ⟨half_fits half, rfl, by rw [encode_hdrEmit, h1]; simp only [opOf, opcOf]; decide, by rw [encode_hdrEmit, h2]; decide⟩

theorem outClear : Statement .outClear := ⟨by decide, rfl, by decide, by decide⟩

theorem blkReset : Statement .blkReset := ⟨by decide, rfl, by decide, by decide⟩

end Sys2Proof.Laws.EncodedFields
end

