-- ==== Sys2Proof/Tests/Slice0.lean ====
section
/-! SUPPORT. The tests: the operand check, decoding of words written out from the encoding tables, one step per command
and per register against 95_test_vectors.md, and for every statement with hypotheses a witness that meets them. -/

namespace Sys2Proof.Tests

open Sys2Proof.Machine

/-- The next state of a result, if it is one. -/
def nextOf : Result → Option State
  | .next t => some t
  | .fault _ => none
  | .refused _ => none

/-- The refusal of a result, if it is one. -/
def refusalOf : Result → Option Refusal
  | .next _ => none
  | .fault _ => none
  | .refused r => some r

theorem eq_next {r : Result} {t : State} (h : nextOf r = some t) : r = .next t := by
  cases r <;> simp_all [nextOf]

theorem eq_refused {r : Result} {f : Refusal} (h : refusalOf r = some f) : r = .refused f := by
  cases r <;> simp_all [refusalOf]

/-- A block just after reset, at address 64, with the least FIFO. -/
def block : State := State.resetWith { blockBase := 64, outDepth := 8 }

/-- A block in use: a checksum in progress, three pages configured, a header waiting, errors pending. -/
def busy : State :=
  { block with
    acc := 0x0907, crc := 0x0498, hdrTotal := 3, status := 0x3, out := [0xDE, 0xAD, 0xBE, 0xEF, 0x03, 0x07] }

/-- A block whose FIFO is full. -/
def full : State := { block with hdrTotal := 1, out := [0x20, 0x06, 0xFF, 0xFF, 0xDE, 0xAD, 0x17, 0x42] }

/-- A block held in reset. -/
def held : State := { block with resetIn := true }

/-- The next state of one host event. -/
def after (e : HostEvent) (s : State) : Option State := nextOf (serve e s)

/-- The next state of one command word. -/
def afterWord (w : Word) (s : State) : Option State := after (commandWrite s.params w) s

/-- The value the next read returns. -/
def readOf (offset width : Nat) (s : State) : Option (List Word) :=
  (after (.read (s.params.blockBase + offset) width) s).map State.reads

/-! ### The operand check (R81, R87) -/

/-- A format N line with an operand is ill formed. -/
theorem test_operand_n_refused : operandFits .n 1 = false ∧ operandFits .n 0 = true := by decide

/-- R87: "an operand above 255". -/
theorem test_operand_b_refused : operandFits .b 256 = false ∧ operandFits .b 255 = true := by decide

/-- R87: "an operand above 65535". -/
theorem test_operand_h_refused : operandFits .h 65536 = false ∧ operandFits .h 65535 = true := by decide

theorem test_assembler_refuses_wide_operands :
    assemble block.params [.pckSeq [0, 256]] = none ∧ assemble block.params [.crcSeq [256]] = none ∧
    assemble block.params [.frameHdr 65536 []] = none ∧
    assemble block.params [.basic (.mnemonic .pckInit 1)] = none := by decide +kernel

/-! ### Decoding. Words written out as OPC, RSV and OPERAND (R80, R81, R83; 95_test_vectors.md section 2.7) -/

theorem test_decode_pckInit :
    decode (0b00000001#8 ++ 0b00000000#8 ++ 0b0000000000000000#16) = .command .pckInit := by decide +kernel

theorem test_decode_pckByte :
    decode (0b00000010#8 ++ 0b00000000#8 ++ 0b0000000010101011#16) = .command (.pckByte 0xAB) := by decide +kernel

theorem test_decode_crcInit :
    decode (0b00010000#8 ++ 0b00000000#8 ++ 0b0000000000000000#16) = .command .crcInit := by decide +kernel

theorem test_decode_crcByte :
    decode (0b00010001#8 ++ 0b00000000#8 ++ 0b0000000000010111#16) = .command (.crcByte 0x17) := by decide +kernel

theorem test_decode_crcEmit :
    decode (0b00010010#8 ++ 0b00000000#8 ++ 0b0000000000000000#16) = .command .crcEmit := by decide +kernel

theorem test_decode_wakeEmit :
    decode (0b00100000#8 ++ 0b00000000#8 ++ 0b0000000000000000#16) = .command .wakeEmit := by decide +kernel

theorem test_decode_hdrEmit :
    decode (0b00110000#8 ++ 0b00000000#8 ++ 0b0001001000110100#16) = .command (.hdrEmit 0x1234) := by decide +kernel

theorem test_decode_outClear :
    decode (0b11110000#8 ++ 0b00000000#8 ++ 0b0000000000000000#16) = .command .outClear := by decide +kernel

theorem test_decode_blkReset :
    decode (0b11111111#8 ++ 0b00000000#8 ++ 0b0000000000000000#16) = .command .blkReset := by decide +kernel

/-- A set bit that the format requires to be 0: bit 0 and bit 16 of N, bit 8 of B, bits [23:16] of H. -/
theorem test_decode_must_be_zero :
    decode 0x01000001 = .illegal .mustBeZeroBitSet ∧ decode 0x01010000 = .illegal .mustBeZeroBitSet ∧
    decode 0x02000100 = .illegal .mustBeZeroBitSet ∧ decode 0x30FF0000 = .illegal .mustBeZeroBitSet ∧
    decode 0xFF000001 = .illegal .mustBeZeroBitSet := by decide +kernel

/-- The ends of R84's unassigned ranges. -/
theorem test_decode_unassigned :
    [0x00, 0x03, 0x0F, 0x13, 0x1F, 0x21, 0x2F, 0x31, 0x80, 0xEF, 0xF1, 0xFE].all
      (fun opc : Byte => decode (opc ++ (0 : BitVec 24)) == .illegal .unassignedOpcode) = true := by decide +kernel

/-- The table's numbering is the word's own; a longer number is no command word. -/
theorem test_decodeTableWord :
    decodeTableWord 32 0x3000FFFF = some (.hdrEmit 0xFFFF) ∧ decodeTableWord 32 0x01000001 = none ∧
    decodeTableWord 64 0x100000000 = none := by decide +kernel

/-! ### Commands (95_test_vectors.md sections 2.1 to 2.6 and 2.9) -/

/-- R102's example. -/
theorem test_pckInit : afterWord 0x01000000 busy = some { busy with acc := 0x00D3 } := by decide +kernel

/-- Section 2.2, the last step of FF FF 01. -/
theorem test_pckByte :
    afterWord 0x02000001 { block with acc := 0xA6A6 } = some { block with acc := 0xA7DE } := by decide +kernel

/-- Section 2.1. -/
theorem test_pckByte_table :
    pckStep 0x00D3 0x01 = 0x01A7 ∧ pckStep 0x00D3 0x80 = 0x6A39 ∧ pckStep 0xFFFF 0xFF = 0xD2FE ∧
    pckStep 0xFFFF 0x00 = 0xFF00 ∧ pckStep 0x0000 0xFF = 0xD2FF ∧ pckStep 0x1234 0x56 = 0x594F ∧
    pageChecksum [0xDE, 0xAD, 0xBE, 0xEF] = 0xB7 := by decide +kernel

/-- R122's example. -/
theorem test_crcInit : afterWord 0x10000000 busy = some { busy with crc := 0xFFFF } := by decide +kernel

/-- Section 2.3, `0x1234` with `0x56`. -/
theorem test_crcByte :
    afterWord 0x11000056 { block with crc := 0x1234 } = some { block with crc := 0xE993 } := by decide +kernel

/-- Sections 2.3 and 2.4. -/
theorem test_crcByte_table :
    crcStep 0x0000 0x01 = 0xC0C1 ∧ crcStep 0x0001 0x01 = 0x0000 ∧ crcStep 0xFFFF 0x20 = 0x98BE ∧
    commandChecksum [0x00, 0x00] = 0xB001 ∧
    commandChecksum [0x01, 0x03, 0x00, 0x00, 0x00, 0x0A] = 0xCDC5 := by decide +kernel

/-- R124's example: low byte first, and the two bytes just fit. -/
theorem test_crcEmit :
    afterWord 0x12000000 busy =
      some { busy with out := [0xDE, 0xAD, 0xBE, 0xEF, 0x03, 0x07, 0x98, 0x04] } := by decide +kernel

/-- P4: `crc.emit` with 7 of 8 bytes waiting. -/
theorem test_crcEmit_overflow :
    afterWord 0x12000000 { block with out := [1, 2, 3, 4, 5, 6, 7] } =
      some { block with out := [1, 2, 3, 4, 5, 6, 7], status := 0x4, errors := [.ovf] } := by decide +kernel

/-- Section 2.5, row 2. -/
theorem test_wakeEmit :
    afterWord 0x20000000 { block with wakeAddr := 0x01, wakeReg := 0x0001, wakeVal := 0x0017 } =
      some { block with
        wakeAddr := 0x01, wakeReg := 0x0001, wakeVal := 0x0017, crc := 0x0498,
        out := [0x01, 0x06, 0x00, 0x01, 0x00, 0x17, 0x98, 0x04] } := by decide +kernel

/-- Section 2.5, last row: `len(OUT) = OUT_DEPTH - 7`. -/
theorem test_wakeEmit_overflow :
    afterWord 0x20000000 { block with out := [1] } =
      some { block with out := [1], status := 0x4, errors := [.ovf] } := by decide +kernel

/-- R162's example; P4, `hdr.emit 1` with one page and a full FIFO: only IDX. -/
theorem test_hdrEmit :
    afterWord 0x30000000 { block with acc := 0x0907, hdrTotal := 3 } =
      some { block with acc := 0x0907, hdrTotal := 3, out := [0xDE, 0xAD, 0xBE, 0xEF, 0x03, 0x07] } ∧
    afterWord 0x30000001 full = some { full with status := 0x2, errors := [.idx] } := by decide +kernel

/-- Section 2.6. -/
theorem test_pageIndex_table :
    pageIndex 3 2 1 false = some 0x01 ∧ pageIndex 3 3 1 false = none ∧ pageIndex 3 0 1 true = some 0x83 ∧
    pageIndex 256 0 0 false = some 0xFF ∧ pageIndex 256 0 1 false = none ∧ pageIndex 129 1 0 true = some 0xFF ∧
    pageIndex 1 0 0x80 true = none ∧ pageIndex 65535 0 0 false = none ∧ pageIndex 65535 65534 0 false = some 0 ∧
    pageIndex 5 65535 1 false = none := by decide +kernel

/-- Section 2.9, row 1. -/
theorem test_outClear :
    afterWord 0xF0000000 { busy with status := 0x4 } = some { busy with status := 0x4, out := [] } := by decide +kernel

/-- Section 2.9, row 2. -/
theorem test_blkReset : afterWord 0xFF000000 busy = some block := by decide +kernel

/-- Section 2.7, last row: an illegal word of the same opcode "resets nothing, sets ILL". -/
theorem test_blkReset_illegal :
    afterWord 0xFF000001 { busy with status := 0x2 } = some { busy with status := 0x3, errors := [.ill] } := by
  decide +kernel

/-! ### Registers and the bus (95_test_vectors.md section 2.8) -/

theorem test_reads_from_reset :
    readOf 0x00 4 block = some [0x00000000] ∧ readOf 0x04 4 busy = some [0x00000003] ∧
    readOf 0x08 4 block = some [0x000000D3] ∧ readOf 0x0C 4 block = some [0x0000FFFF] ∧
    readOf 0x10 4 block = some [0x00000000] ∧ readOf 0x14 4 block = some [0x00000001] ∧
    readOf 0x18 4 block = some [0x00000020] ∧ readOf 0x1C 4 block = some [0x0000FFFF] ∧
    readOf 0x20 4 block = some [0x0000DEAD] ∧ readOf 0x24 4 block = some [0x00000000] ∧
    readOf 0x28 4 busy = some [0x00080006] := by decide +kernel

/-- P1's first drained byte. -/
theorem test_outData_pops :
    after (.read (64 + 0x24) 4) full =
      some { full with
        out := [0x06, 0xFF, 0xFF, 0xDE, 0xAD, 0x17, 0x42], received := [0x20], reads := [0x120] } := by
  decide +kernel

theorem test_writes :
    after (.write (64 + 0x10) 4 0x12345678) block = some { block with hdrTotal := 0x5678 } ∧
    after (.write (64 + 0x14) 4 0xFFFFFFFF) block = some { block with startOffset := 0xFF, crypt := true } ∧
    after (.write (64 + 0x08) 4 0x1234) block = some block ∧
    after (.write (64 + 0x04) 4 0x1) busy = some { busy with status := 0x2 } ∧
    after (.write (64 + 0x04) 4 0xF) block = some block := by decide +kernel

theorem test_address_errors :
    after (.read (64 + 0x2C) 4) block = some { block with status := 0x8, reads := [0], errors := [.addr] } ∧
    after (.read (64 + 0x26) 4) block = some { block with status := 0x8, reads := [0], errors := [.addr] } ∧
    after (.write (64 + 0x3C) 4 1) block = some { block with status := 0x8, errors := [.addr] } ∧
    after (.write (64 + 0x10) 2 1) block = some { block with status := 0x8, errors := [.addr] } := by decide +kernel

/-- R230: the reset input does what BLK.RESET does. -/
theorem test_reset_input : after (.setReset true) busy = some { block with resetIn := true } := by decide +kernel

/-- The step runs the placed word next, right after reset. -/
theorem test_step_runs_the_placed_word :
    nextOf (step (State.reset.withFetchWord 32 0x20000000)) =
      some { State.reset with crc := 0x4217, out := [0x20, 0x06, 0xFF, 0xFF, 0xDE, 0xAD, 0x17, 0x42] } := by
  decide +kernel
/-! ### Witnesses: a concrete input for the hypotheses of each statement, each clause at the ends of its range -/

/-- A block whose FIFO holds ten bytes, with two waiting. -/
def deep : State := { State.resetWith { blockBase := 0, outDepth := 10 } with out := [0x98, 0x04] }

theorem witness_OpcodeMapMatchesTheTable :
    encodesRow 0x3000FFFF .hdrEmit = true ∧ encodesRow 0x020000FF .pckByte = true ∧
    encodesRow 0xFF000000 .blkReset = true := by decide +kernel

theorem witness_DecodeOfEncodeIsTheCommand :
    (Instr.pckByte 0xFF).WellFormed ∧ (Instr.hdrEmit 0xFFFF).WellFormed ∧ Instr.blkReset.WellFormed := by decide

theorem witness_EncodeOfDecodeIsTheWord :
    decode 0x020000FF = .command (.pckByte 0xFF) ∧ decode 0x30000000 = .command (.hdrEmit 0) := by decide +kernel

theorem witness_IllegalWordsOnlyRaiseIll :
    decode 0x00000000 = .illegal .unassignedOpcode ∧ decode 0x02000100 = .illegal .mustBeZeroBitSet ∧
    decode 0x020000FF = .command (.pckByte 0xFF) ∧ decode 0x11000000 = .command (.crcByte 0) ∧
    decode 0x3000FFFF = .command (.hdrEmit 0xFFFF) := by decide +kernel

theorem witness_StepRunsTheDecodedCommand :
    ({ busy with pending := [commandWrite busy.params 0xF0000000, .setReset true] } : State).pending =
      .write busy.params.blockBase 4 0xF0000000 :: [.setReset true] ∧
    busy.resetIn = false ∧ decode 0xF0000000 = .command .outClear := by decide +kernel

theorem witness_IdleBlockKeepsItsState : busy.pending = [] := rfl

theorem witness_EventsTakeEffectInOrder :
    ({ block with pending := [regRead block.params .status] ++ [.setReset true] } : State).pending =
      [regRead block.params .status] ++ [.setReset true] ∧
    serveAll [commandWrite block.params 0x20000000] block =
      .next { block with crc := 0x4217, out := wakeCommand block } ∧
    ({ block with crc := 0x4217, out := wakeCommand block } : State).resetIn = false ∧
    serveAll ([commandWrite block.params 0x20000000] ++
        regRead block.params .outLevel :: [commandWrite block.params 0xF0000000]) block =
      .next { block with crc := 0x4217, reads := [0x00080008] } :=
  ⟨rfl, eq_next (by decide +kernel), rfl, eq_next (by decide +kernel)⟩

theorem witness_WindowAccessesComplete :
    busy.resetIn = false ∧ windowAccess busy.params (.read 64 4) = true ∧
    windowAccess busy.params (.write 127 1 0) = true ∧ windowAccess busy.params (.read 63 4) = false ∧
    windowAccess busy.params (.read 128 4) = false := by decide

/-- Both refusals occur, on either side of the window and in reset. -/
theorem witness_OnlyAccessesOutsideTheContractAreRefused :
    step { block with pending := [.read 63 4] } = .refused .outsideWindow ∧
    step { block with pending := [.write 128 4 0] } = .refused .outsideWindow ∧
    step { held with pending := [.read 64 4] } = .refused .accessDuringReset :=
  ⟨eq_refused (by decide), eq_refused (by decide), eq_refused (by decide)⟩

theorem witness_AddressErrorsOnlySetAddr :
    busy.resetIn = false ∧ 0x3F < 64 ∧ 0x2C ≤ 0x2C ∧ 0x2C ≤ 0x3F ∧ 0x01 % 4 ≠ 0 ∧ 0x26 % 4 ≠ 0 ∧ 2 ≠ 4 := by
  decide

theorem witness_ReadOnlyRegistersIgnoreWrites : busy.resetIn = false := rfl

theorem witness_ConfigurationRegistersStoreTheirFields : busy.resetIn = false := rfl

theorem witness_StatusBitsAreWriteOneToClear :
    busy.resetIn = false ∧
    serve (.read 65 4) busy = .next { busy with status := 0xB, errors := [.addr], reads := [0] } ∧
    hasStatus busy.status .addr = false ∧ hasStatus (0xB : BitVec 4) .addr = true :=
  ⟨rfl, eq_next (by decide +kernel), by decide, by decide⟩

theorem witness_OutDataReadPopsTheHead :
    full.resetIn = false ∧ full.out = 0x20 :: [0x06, 0xFF, 0xFF, 0xDE, 0xAD, 0x17, 0x42] ∧
    block.resetIn = false ∧ block.out = [] := ⟨rfl, rfl, rfl, rfl⟩

theorem witness_CmdReadsZeroAndIssuesCommands : busy.resetIn = false := rfl

theorem witness_ReservedBitsReadZeroAndIgnoreWrites :
    (0xFFFFFFFF : Word) &&& ~~~reservedBits .hdrCfg = 0x000001FF &&& ~~~reservedBits .hdrCfg ∧
    Reg.status ≠ .cmd ∧ busy.resetIn = false := by decide

theorem witness_SideEffectsOfRegisterAccesses :
    Reg.status ≠ .cmd ∧ serve (regWrite busy.params .status 0x1) busy = .next { busy with status := 0x2 } ∧
    Reg.outLevel ∈ [Reg.pckAcc, .crcVal, .outData, .outLevel] ∧ busy.resetIn = false ∧
    Reg.cmd ≠ .outData :=
  ⟨by decide, eq_next (by decide +kernel), by decide, rfl, by decide⟩

theorem witness_OutLevelShowsFillAndDepth : full.Inv ∧ full.resetIn = false :=
  ⟨⟨by decide, by decide, by decide, fun e h => by cases e <;> exact absurd h (by decide)⟩, rfl⟩

theorem witness_RegisterAccessFrame :
    serve (regRead full.params .outData) full =
      .next { full with
        out := [0x06, 0xFF, 0xFF, 0xDE, 0xAD, 0x17, 0x42], received := [0x20], reads := [0x120] } ∧
    Reg.status ≠ .outData ∧ Reg.status ≠ .outLevel ∧
    serve (regRead full.params .cmd) full = .next { full with reads := [0] } ∧ Reg.cmd ≠ .outData ∧
    serve (regWrite full.params .hdrTotal 0xFFFF0002) full = .next { full with hdrTotal := 2 } ∧
    Reg.hdrTotal ≠ .cmd ∧ Reg.hdrCfg ≠ .hdrTotal :=
  ⟨eq_next (by decide +kernel), by decide, by decide, eq_next (by decide +kernel), by decide,
    eq_next (by decide +kernel), by decide, by decide⟩

theorem witness_PckInitStartsThePageChecksum :
    block.acc = 0x00D3 ∧ opcField 0x01000001 = 0x01 ∧ (0x01000001 : Word).extractLsb' 0 24 ≠ 0 ∧
    opcField 0x01800000 = 0x01 ∧ (0x01800000 : Word).extractLsb' 0 24 ≠ 0 := by decide +kernel

theorem witness_PckByteFeedsOneByte :
    opcField 0x02000100 = 0x02 ∧ (0x02000100 : Word).extractLsb' 8 16 ≠ 0 ∧
    opcField 0x02800000 = 0x02 ∧ (0x02800000 : Word).extractLsb' 8 16 ≠ 0 := by decide +kernel

/-- The bytes fed lie among a command of another unit, a read, an address error and an illegal word. -/
theorem witness_PageChecksumOfTheBytesFed :
    busy.resetIn = false ∧
    (∀ e ∈ [commandWrite busy.params 0x02000001, commandWrite busy.params 0x11000017,
        regRead busy.params .outData, .read 127 1, commandWrite busy.params 0x01000001],
      windowAccess busy.params e = true ∧ restartsPck busy.params e = false) ∧
    serve (commandWrite busy.params 0x01000000) busy = .next { busy with acc := 0x00D3 } ∧
    ({ busy with acc := 0x00D3 } : State).acc ≠ busy.acc :=
  ⟨rfl, by decide +kernel, eq_next (by decide +kernel), by decide⟩

theorem witness_CrcInitStartsTheCommandChecksum :
    opcField 0x10000001 = 0x10 ∧ (0x10000001 : Word).extractLsb' 0 24 ≠ 0 := by decide +kernel

theorem witness_CrcByteFeedsOneByte :
    opcField 0x11000100 = 0x11 ∧ (0x11000100 : Word).extractLsb' 8 16 ≠ 0 := by decide +kernel

theorem witness_CrcEmitAppendsLowByteFirst :
    opcField 0x12000001 = 0x12 ∧ (0x12000001 : Word).extractLsb' 0 24 ≠ 0 ∧
    busy.out.length + 2 ≤ busy.params.outDepth ∧ full.params.outDepth < full.out.length + 2 ∧
    block.resetIn = false ∧ block.out.length + 4 ≤ block.params.outDepth ∧
    busy.resetIn = false := by decide +kernel

theorem witness_CommandChecksumOfTheBytesFed :
    busy.resetIn = false ∧
    (∀ e ∈ [commandWrite busy.params 0x11000001, commandWrite busy.params 0x02000017,
        regWrite busy.params .wakeVal 0, .write 64 2 0x20000000, commandWrite busy.params 0x10000001],
      windowAccess busy.params e = true ∧ restartsCrc busy.params e = false) ∧
    serve (commandWrite busy.params 0x10000000) busy = .next { busy with crc := 0xFFFF } ∧
    ({ busy with crc := 0xFFFF } : State).crc ≠ busy.crc :=
  ⟨rfl, by decide +kernel, eq_next (by decide +kernel), by decide⟩

theorem witness_WakeCommandLayout :
    block.wakeAddr.toNat = 32 ∧ block.wakeReg.toNat = 65535 ∧ block.wakeVal = 0xDEAD := by decide

theorem witness_WakeEmitPacksTheWakeCommand :
    opcField 0x20000001 = 0x20 ∧ (0x20000001 : Word).extractLsb' 0 24 ≠ 0 ∧
    [0x20, 0x06, 0xFF, 0xFF, 0xDE, 0xAD] = [block.wakeAddr, 0x06, block.wakeReg.extractLsb' 8 8,
      block.wakeReg.extractLsb' 0 8, block.wakeVal.extractLsb' 8 8, block.wakeVal.extractLsb' 0 8] ∧
    0x4217 = commandChecksum [0x20, 0x06, 0xFF, 0xFF, 0xDE, 0xAD] ∧
    block.out.length + 8 ≤ block.params.outDepth ∧
    ({ block with out := [1] } : State).params.outDepth < ({ block with out := [1] } : State).out.length + 8 ∧
    ({ deep with out := [] } : State).resetIn = false ∧
    ({ deep with out := [] } : State).out.length + 10 ≤ ({ deep with out := [] } : State).params.outDepth ∧
    ({ blockBase := 64, outDepth := 8 } : Params).Ok ∧ ({ blockBase := 0, outDepth := 65535 } : Params).Ok := by
  decide +kernel

/-- `i = total - 1`, `i = total`, and the first sum past one byte. -/
theorem witness_PageIndexArithmetic :
    (2 : Half).toNat < (3 : Half).toNat ∧ (3 : Half).toNat ≤ (3 : Half).toNat ∧
    0xFF < ((256 : Half).toNat - (0 : Half).toNat - 1) + (1 : Byte).toNat + (if false then 0x80 else 0) ∧
    0xFF < ((1 : Half).toNat - (0 : Half).toNat - 1) + (0x80 : Byte).toNat + (if true then 0x80 else 0) := by decide

theorem witness_HdrEmitAssemblesTheHeader :
    opcField 0x30010000 = 0x30 ∧ (0x30010000 : Word).extractLsb' 16 8 ≠ 0 ∧
    pageIndex full.hdrTotal 0 full.startOffset full.crypt = some 1 ∧
    full.params.outDepth < full.out.length + 6 ∧
    pageIndex deep.hdrTotal 0 deep.startOffset deep.crypt = none ∧ deep.hdrTotal = 0 ∧
    pageIndex busy.hdrTotal 0 busy.startOffset busy.crypt = some 3 ∧
    ({ busy with out := [1, 2] } : State).out.length + 6 ≤ busy.params.outDepth ∧
    (65535 : Half) ≠ 0 ∧ (0xFF : Byte).toNat + (if false then 0x80 else 0) ≤ 0xFF ∧
    (0x7F : Byte).toNat + (if true then 0x80 else 0) ≤ 0xFF ∧
    pageIndex 256 0 0 false = some 0xFF ∧ pageIndex 256 255 0 false = some 0 ∧
    ({ busy with crypt := true, startOffset := 0x80 } : State).crypt = true ∧
    0x80 ≤ ({ busy with crypt := true, startOffset := 0x80 } : State).startOffset.toNat := by decide +kernel

theorem witness_ImagePageHasItsOwnIndex :
    (255 : Half).toNat < (256 : Half).toNat ∧
    (255 : Half).toNat + (0 : Byte).toNat + (if false then 0x80 else 0) ≤ 0xFF ∧
    (127 : Half).toNat + (0 : Byte).toNat + (if true then 0x80 else 0) ≤ 0xFF := by decide

theorem witness_IndicesDescendAndAreDistinct :
    pageIndex 3 0 1 false = some 3 ∧ pageIndex 3 2 1 false = some 1 ∧ (0 : Half).toNat < (2 : Half).toNat ∧
    0 < (3 : Half).toNat ∧ pageIndex 128 127 0 true = some 0x80 := by decide +kernel

theorem witness_OutClearEmptiesTheFifo :
    block.out = [] ∧ busy.resetIn = false ∧ opcField 0xF0000001 = 0xF0 ∧
    (0xF0000001 : Word).extractLsb' 0 24 ≠ 0 := by decide +kernel

theorem witness_BlkResetResetsTheBlock :
    opcField 0xFF000001 = 0xFF ∧ (0xFF000001 : Word).extractLsb' 0 24 ≠ 0 ∧ exec .blkReset busy = .next block ∧
    serve (.setReset true) busy = .next { block with resetIn := true } :=
  ⟨by decide +kernel, by decide +kernel, eq_next (by decide +kernel), eq_next (by decide +kernel)⟩

theorem witness_ResetValuesOfTheState :
    State.reset = State.reset ∧ ∃ p : Params, block = State.resetWith p := ⟨rfl, _, rfl⟩

theorem witness_ResetInputResetsEveryElement :
    serve (.setReset true) busy = .next held ∧ (∀ e ∈ [HostEvent.setReset true], e ≠ .setReset false) ∧
    serveAll [.setReset true] held = .next held :=
  ⟨eq_next (by decide +kernel), by decide, eq_next (by decide +kernel)⟩

theorem witness_ResetStateMeetsTheInvariant :
    ({ blockBase := 0, outDepth := 8 } : Params).Ok ∧ ({ blockBase := 64, outDepth := 65535 } : Params).Ok := by
  decide

/-- The invariant allows a full FIFO with `OVF` set, and reset asserted. -/
theorem invariant_is_met_by_busy_states : (raiseError .ovf full).Inv ∧ held.Inv :=
  ⟨⟨by decide, by decide, by decide, fun e h => by cases e <;> first | exact absurd h (by decide) | decide⟩,
    ⟨by decide, by decide, fun _ => by decide, fun e h => by cases e <;> exact absurd h (by decide)⟩⟩

theorem witness_EveryStepKeepsTheInvariant :
    ({ block with pending := [.read 65 4] } : State).Inv ∧
    step { block with pending := [.read 65 4] } =
      .next { block with status := 0x8, reads := [0], errors := [.addr] } :=
  ⟨⟨by decide, by decide, by decide, fun e h => by cases e <;> exact absurd h (by decide)⟩, eq_next (by decide +kernel)⟩

theorem witness_ErrorsHaveExactlyTheirCauses :
    serve (commandWrite full.params 0x12000000) full = .next (raiseError .ovf full) ∧
    (raiseError .ovf full).errors ≠ full.errors ∧
    serve (commandWrite full.params 0xF0000000) full = .next { full with out := [] } ∧
    commandAt full.params (commandWrite full.params 0xF0000000) = some .outClear ∧ Instr.outClear ≠ .crcEmit ∧
    Instr.outClear ≠ .wakeEmit :=
  ⟨eq_next (by decide +kernel), by decide, eq_next (by decide +kernel), by decide +kernel, by decide, by decide⟩

theorem witness_ErrorsArePrecise :
    serve (.read 66 4) busy = .next { busy with status := 0xB, errors := [.addr], reads := [0] } ∧
    serve (commandWrite busy.params 0) busy = .next { busy with errors := [.ill] } ∧
    ([.ill] : List ErrCode) ≠ busy.errors :=
  ⟨eq_next (by decide +kernel), eq_next (by decide +kernel), by decide⟩

theorem witness_StatusBitsGateNothingAndStick :
    serve (regWrite busy.params .status 0x1) busy = .next { busy with status := 0x2 } ∧
    hasStatus busy.status .ill = true ∧ hasStatus (0x2 : BitVec 4) .ill = false ∧
    serve (.read 0 4) busy = .refused .outsideWindow :=
  ⟨eq_next (by decide +kernel), by decide, by decide, eq_refused (by decide)⟩

theorem witness_OneErrorPerAccessInPriorityOrder :
    serve (commandWrite busy.params 0) busy = .next { busy with errors := [.ill] } ∧ busy.resetIn = false ∧ 1 ≠ 4 ∧
    decode 0 = .illegal .unassignedOpcode ∧
    full.resetIn = false ∧ pageIndex full.hdrTotal 1 full.startOffset full.crypt = none ∧
    full.params.outDepth < full.out.length + 6 ∧
    pageIndex full.hdrTotal 0 full.startOffset full.crypt = some 1 :=
  ⟨eq_next (by decide +kernel), rfl, by decide, by decide +kernel, rfl, by decide +kernel, by decide, by decide +kernel⟩

theorem witness_ErrorsSetTheirBitBesideTheOthers :
    serve (commandWrite busy.params 0) busy = .next { busy with errors := [.ill] } ∧
    ([.ill] : List ErrCode) = busy.errors ++ [.ill] ∧ hasStatus busy.status .ill = true :=
  ⟨eq_next (by decide +kernel), rfl, by decide⟩

theorem witness_CommandFrame :
    exec .crcEmit busy =
      .next { busy with out := [0xDE, 0xAD, 0xBE, 0xEF, 0x03, 0x07, 0x98, 0x04] } ∧
    Reg.crcVal ∉ mayChange .crcEmit ∧ ErrCode.idx ∉ mayRaise .crcEmit ∧ Instr.crcEmit ≠ .blkReset ∧
    Instr.crcEmit ≠ .outClear ∧ exec .pckInit busy = .next { busy with acc := 0x00D3 } ∧
    Reg.outData ∉ mayChange .pckInit :=
  ⟨eq_next (by decide +kernel), by decide, by decide, by decide, by decide, eq_next (by decide +kernel), by decide⟩

theorem witness_OutputBytesKeepTheirOrder :
    serveAll [regRead deep.params .outData, commandWrite deep.params 0x12000000] deep =
      .next { deep with out := [0x04, 0xFF, 0xFF], received := [0x98], reads := [0x198] } ∧
    (∀ e ∈ [regRead deep.params .outData, commandWrite deep.params 0x12000000],
      discardsOut deep.params e = false) ∧
    serve (commandWrite deep.params 0xF0000000) deep = .next { deep with out := [] } ∧
    discardsOut deep.params (commandWrite deep.params 0xF0000000) = true :=
  ⟨eq_next (by decide +kernel), by decide +kernel, eq_next (by decide +kernel), by decide +kernel⟩

theorem witness_EmissionsAreAllOrNothing :
    full.params.outDepth < full.out.length + [0xFF].length ∧
    block.out.length + (wakeCommand block).length ≤ block.params.outDepth ∧
    serve (commandWrite full.params 0x12000000) full = .next (raiseError .ovf full) ∧
    (raiseError .ovf full).errors = full.errors ++ [.ovf] :=
  ⟨by decide, by decide +kernel, eq_next (by decide +kernel), rfl⟩

theorem witness_AssemblerRefusesWideOperands :
    255 < 256 ∧ 65535 < 65536 ∧
    assembleLine block.params (.mnemonic .hdrEmit 65535) = some (commandWrite block.params 0x3000FFFF) := by
  decide +kernel

theorem witness_FrameHdrLineEmitsThePageHeader :
    block.resetIn = false ∧ pageIndex full.hdrTotal 0 full.startOffset full.crypt = some 1 ∧
    ({ full with out := [1, 2] } : State).out.length + 6 ≤ full.params.outDepth := by decide +kernel

theorem witness_DrainReceivesTheBytesInOrder : full.resetIn = false ∧ 8 ≤ full.out.length := by decide

theorem witness_ConfigurationLinesConfigureTheBlock : busy.resetIn = false := rfl

theorem witness_CrcSeqLineEmitsTheCommandChecksum :
    busy.resetIn = false ∧ busy.out.length + 2 ≤ busy.params.outDepth := by decide

end Sys2Proof.Tests
end

section
/-! The invariant `State.Inv`: what each event of the host does to its four parts, the step lemma, and the reset state. -/

namespace Sys2Proof.Machine

variable {s t : State}

/-! ### Register accesses -/

@[simp] theorem popOut_params (s : State) : (popOut s).params = s.params := by
  obtain ⟨-, h⟩ | ⟨_, _, -, h⟩ := popOut_cases s <;> rw [h]

@[simp] theorem popOut_resetIn (s : State) : (popOut s).resetIn = s.resetIn := by
  obtain ⟨-, h⟩ | ⟨_, _, -, h⟩ := popOut_cases s <;> rw [h]

@[simp] theorem readReg_resetIn (r : Reg) (s : State) : (readReg r s).resetIn = s.resetIn := by
  cases r <;> simp [readReg, readEffect]

/-- A read never makes `OUT` longer: only `OUT_DATA` touches it, and that read pops (R56). -/
theorem readReg_out_length_le (r : Reg) (s : State) : (readReg r s).out.length ≤ s.out.length := by
  cases r <;> simp [readReg, readEffect, popOut_length_le]

@[simp] theorem writeReg_resetIn (r : Reg) (v : Word) (s : State) : (writeReg r v s).resetIn = s.resetIn := by
  cases r <;> rfl

@[simp] theorem writeReg_out (r : Reg) (v : Word) (s : State) : (writeReg r v s).out = s.out := by
  cases r <;> rfl

/-! ### `OUT` within its capacity (R61) -/

/-- A command leaves `OUT` within its capacity: the three emitting commands push only what fits (R63). -/
theorem exec_out_length_le {i : Instr} (h : exec i s = .next t) (hs : s.out.length ≤ s.params.outDepth) :
    t.out.length ≤ s.params.outDepth := by
  obtain ⟨_, -, e⟩ | ⟨_, -, e⟩ | ⟨-, hfit, e⟩ | ⟨-, -, e⟩ | ⟨-, hfit, e⟩ | ⟨-, -, e⟩ | ⟨_, -, -, e⟩ |
    ⟨_, _, -, -, hfit, e⟩ | ⟨_, _, -, -, -, e⟩ | ⟨-, e⟩ | ⟨-, e⟩ := exec_cases i s <;>
    obtain rfl := Host.Outcome.next.inj (e.symm.trans h)
  · exact hs
  · exact hs
  · simpa using hfit
  · exact hs
  · simpa using hfit
  · exact hs
  · exact hs
  · simpa using hfit
  · exact hs
  · exact Nat.zero_le _
  · exact Nat.zero_le _

theorem serve_out_length_le {e : HostEvent} (h : serve e s = .next t) (hs : s.out.length ≤ s.params.outDepth) :
    t.out.length ≤ s.params.outDepth := by
  obtain ⟨-, rfl⟩ | ⟨-, rfl⟩ | ⟨-, r, -, rfl⟩ | ⟨-, r, v, -, -, rfl⟩ | ⟨-, _, i, -, -, hx⟩ | ⟨-, _, _, -, -, rfl⟩ |
    ⟨-, _, _, -, -, -, rfl⟩ | ⟨-, _, _, _, -, -, -, rfl⟩ := serve_cases h
  · exact Nat.zero_le _
  · exact hs
  · exact (readReg_out_length_le r s).trans hs
  · simpa using hs
  · exact exec_out_length_le hx hs
  · exact hs
  · exact hs
  · exact hs

/-! ### Reset values while reset is asserted (R230) -/

theorem resetBlock_atReset (s : State) : (resetBlock s).AtReset := rfl

/-- Reset is asserted after an event only if the event asserts it: accesses are performed only while it is released
(R231), and no access asserts it. -/
theorem serve_atReset {e : HostEvent} (h : serve e s = .next t) (ht : t.resetIn = true) : t.AtReset := by
  obtain ⟨-, rfl⟩ | ⟨-, rfl⟩ | ⟨hs, r, -, rfl⟩ | ⟨hs, r, v, -, -, rfl⟩ | ⟨hs, _, i, -, -, hx⟩ | ⟨hs, _, _, -, -, rfl⟩ |
    ⟨hs, _, _, -, -, -, rfl⟩ | ⟨hs, _, _, _, -, -, -, rfl⟩ := serve_cases h
  · exact resetBlock_atReset _
  · simp at ht
  · simp [hs] at ht
  · simp [hs] at ht
  · obtain ⟨_, hnext, -, hreset, -⟩ := exec_next i s
    obtain rfl := Host.Outcome.next.inj (hnext.symm.trans hx)
    simp [hreset, hs] at ht
  · simp [hs] at ht
  · simp [hs] at ht
  · simp [hs] at ht

/-! ### `STATUS` bits only of errors that were raised (R33) -/

theorem serve_status_raised {e : HostEvent} (h : serve e s = .next t)
    (hs : ∀ c, hasStatus s.status c = true → c ∈ s.errors) (c : ErrCode) (hc : hasStatus t.status c = true) :
    c ∈ t.errors := by
  obtain ⟨herrors, hstatus⟩ | ⟨d, herrors, hstatus, -⟩ := serve_errors h
  · exact herrors ▸ hs c (hstatus c hc)
  · rw [hstatus, hasStatus_statusAfterError, Bool.or_eq_true, beq_iff_eq] at hc
    rw [herrors, List.mem_append, List.mem_singleton]
    exact hc.symm.imp_left (hs c)

/-! ### The invariant -/

/-- Every event that ends in a next state keeps the invariant. -/
theorem serve_inv {e : HostEvent} (h : serve e s = .next t) (hs : s.Inv) : t.Inv := by
  obtain ⟨hparams, -, -⟩ := serve_keeps h
  exact {
    params := hparams ▸ hs.params
    level := hparams ▸ serve_out_length_le h hs.level
    reset := serve_atReset h
    status := serve_status_raised h hs.status }

/-- The invariant does not look at the host's queue. -/
theorem State.Inv.withPending (hs : s.Inv) (p : List HostEvent) : ({ s with pending := p } : State).Inv where
  params := hs.params
  level := hs.level
  reset h := congrArg (fun u : State => { u with pending := p }) (hs.reset h)
  status := hs.status

/-- Every way a step can end in a next state. -/
theorem step_cases (h : step s = .next t) :
    (s.pending = [] ∧ t = s) ∨ ∃ e rest, s.pending = e :: rest ∧ serve e { s with pending := rest } = .next t := by
  unfold step at h
  split at h
  · exact .inl ⟨‹_›, (Host.Outcome.next.inj h).symm⟩
  · exact .inr ⟨_, _, ‹_›, h⟩

/-- Settles O45: the four parts of the invariant are kept one by one by the event a step performs (`serve_inv`), and a
step with nothing pending keeps the state. -/
theorem everyStepKeepsTheInvariant : Obligations.EveryStepKeepsTheInvariant := by
  intro s t hs h
  obtain ⟨-, rfl⟩ | ⟨e, rest, -, hserve⟩ := step_cases h
  · exact hs
  · exact serve_inv hserve (hs.withPending rest)

/-- After reset `OUT` is empty, no `STATUS` bit is 1 and the reset input is released, so the invariant asks only for
admitted parameters. -/
theorem resetWith_inv {p : Params} (hp : p.Ok) : (State.resetWith p).Inv where
  params := hp
  level := Nat.zero_le _
  reset _ := rfl
  status c hc := absurd hc (by simp [State.resetWith, hasStatus_resetStatus])

/-- Settles O44: `State.reset` is the case of the parameters of log 3, which R7 admits. -/
theorem resetStateMeetsTheInvariant : Obligations.ResetStateMeetsTheInvariant :=
  ⟨fun _ hp => resetWith_inv hp, resetWith_inv (by decide)⟩

end Sys2Proof.Machine
end

section
/-! The register window (10_state.md section 4): what a read returns, what a write stores, what each leaves unchanged,
and the host program lines that read and write registers. -/

namespace Sys2Proof.Machine

variable {s t : State}

/-! ### Fields of the written and read words (R30 to R34) -/

/-- The word `HDR_CFG` shows: `CRYPT` in bit 8 over `START_OFFSET` (R31). -/
def hdrCfgWord (crypt : Bool) (offset : Byte) : Word := (BitVec.ofBool crypt ++ offset).setWidth 32

theorem readValue_hdrCfg (s : State) : readValue .hdrCfg s = hdrCfgWord s.crypt s.startOffset := rfl

theorem hdrCfgWord_toNat (crypt : Bool) (offset : Byte) :
    (hdrCfgWord crypt offset).toNat = crypt.toNat <<< 8 ||| offset.toNat := by
  have hlt := (BitVec.ofBool crypt ++ offset).isLt
  rw [hdrCfgWord, BitVec.toNat_setWidth, Nat.mod_eq_of_lt (by omega), BitVec.toNat_append, BitVec.toNat_ofBool]

/-- `CRYPT` is worth 256 in the word, since `START_OFFSET` has the eight bits below it. -/
theorem hdrCfgWord_toNat_eq_add (crypt : Bool) (offset : Byte) :
    (hdrCfgWord crypt offset).toNat = (if crypt then 256 else 0) + offset.toNat := by
  rw [hdrCfgWord_toNat, ← Nat.shiftLeft_add_eq_or_of_lt offset.isLt]
  cases crypt <;> rfl

theorem getLsbD_hdrCfgWord {k : Nat} (hk : k < 32) (crypt : Bool) (offset : Byte) :
    (hdrCfgWord crypt offset).getLsbD k =
      if k < 8 then offset.getLsbD k else (BitVec.ofBool crypt).getLsbD (k - 8) := by
  rw [hdrCfgWord, BitVec.getLsbD_setWidth, BitVec.getLsbD_append, decide_eq_true hk, Bool.true_and]

@[simp] theorem wordByte_hdrCfgWord (crypt : Bool) (offset : Byte) : wordByte (hdrCfgWord crypt offset) = offset := by
  ext k hk
  rw [wordByte, BitVec.getElem_extractLsb', Nat.zero_add, getLsbD_hdrCfgWord (by omega), if_pos hk,
    BitVec.getLsbD_eq_getElem hk]

@[simp] theorem wordCrypt_hdrCfgWord (crypt : Bool) (offset : Byte) : wordCrypt (hdrCfgWord crypt offset) = crypt := by
  rw [wordCrypt, getLsbD_hdrCfgWord (by decide), if_neg (by decide)]
  simp

/-- Extending a field to a word does not change its low bits. -/
theorem extractLsb'_setWidth {n len : Nat} (h : len ≤ 32) (x : BitVec n) :
    (x.setWidth 32).extractLsb' 0 len = x.extractLsb' 0 len := by
  ext k hk
  simp [show k < 32 by omega]

@[simp] theorem wordHalf_setWidth (v : Half) : wordHalf (v.setWidth 32) = v :=
  (extractLsb'_setWidth (by decide) v).trans BitVec.extractLsb'_eq_self

@[simp] theorem wordByte_setWidth (b : Byte) : wordByte (b.setWidth 32) = b :=
  (extractLsb'_setWidth (by decide) b).trans BitVec.extractLsb'_eq_self

/-- `PCK_ACC[7:0]` is `ACC[7:0]` (R28). -/
theorem wordByte_setWidth_half (v : Half) : wordByte (v.setWidth 32) = lowByte v :=
  extractLsb'_setWidth (by decide) v

/-- The word of `OUT_DATA` for a byte: VALID in bit 8 over the byte (R34). -/
theorem outDataValue_cons (b : Byte) (rest : List Byte) :
    outDataValue (b :: rest) = BitVec.ofNat 32 (256 + b.toNat) := by
  have hb := b.isLt
  apply BitVec.eq_of_toNat_eq
  rw [outDataValue, BitVec.toNat_setWidth, BitVec.toNat_append, ← Nat.shiftLeft_add_eq_or_of_lt hb]
  rfl

/-- A 1 written to each of the four bits clears them all (R33). -/
theorem statusAfterWrite_all (st : BitVec 4) : statusAfterWrite 0xF st = 0 := by
  revert st; decide

/-! ### Reads -/

theorem popOut_of_nil (h : s.out = []) : popOut s = s := by
  simp only [popOut, h]

theorem popOut_of_cons {b : Byte} {rest : List Byte} (h : s.out = b :: rest) :
    popOut s = { s with out := rest, received := s.received ++ [b] } := by
  simp only [popOut, h]

/-- Only a read of `OUT_DATA` has a side effect (R56). -/
theorem readReg_of_ne_outData {r : Reg} (hr : r ≠ .outData) (s : State) :
    readReg r s = recordRead (readValue r s) s := by
  cases r with
  | outData => exact absurd rfl hr
  | _ => rfl

theorem readReg_outData_of_nil (h : s.out = []) : readReg .outData s = recordRead 0 s := by
  simp only [readReg, readEffect, readValue, popOut_of_nil h, h, outDataValue]

theorem readReg_outData_of_cons {b : Byte} {rest : List Byte} (h : s.out = b :: rest) :
    readReg .outData s = { s with
      out := rest, received := s.received ++ [b], reads := s.reads ++ [BitVec.ofNat 32 (256 + b.toNat)] } := by
  simp only [readReg, readEffect, readValue, popOut_of_cons h, h, outDataValue_cons, recordRead]

@[simp] theorem popOut_errors (s : State) : (popOut s).errors = s.errors := by
  obtain ⟨-, h⟩ | ⟨_, _, -, h⟩ := popOut_cases s <;> rw [h]

@[simp] theorem readReg_errors (r : Reg) (s : State) : (readReg r s).errors = s.errors := by
  cases r <;> simp [readReg, readEffect]

/-- The observation of reads shows in no register. -/
@[simp] theorem readValue_recordRead (q : Reg) (v : Word) (s : State) :
    readValue q (recordRead v s) = readValue q s := by
  cases q <;> rfl

/-- A pop shows in `OUT_DATA` and `OUT_LEVEL` only. -/
theorem readValue_popOut {q : Reg} (hdata : q ≠ .outData) (hlevel : q ≠ .outLevel) (s : State) :
    readValue q (popOut s) = readValue q s := by
  obtain ⟨-, h⟩ | ⟨_, _, -, h⟩ := popOut_cases s
  · rw [h]
  · rw [h]
    cases q with
    | outData => exact absurd rfl hdata
    | outLevel => exact absurd rfl hlevel
    | _ => rfl

/-- The frame of a read (R56). -/
theorem readValue_readReg {r q : Reg} (h : r ≠ .outData ∨ (q ≠ .outData ∧ q ≠ .outLevel)) (s : State) :
    readValue q (readReg r s) = readValue q s := by
  by_cases hr : r = .outData
  · subst hr
    obtain ⟨hdata, hlevel⟩ := h.resolve_left (absurd rfl)
    exact (readValue_recordRead q _ _).trans (readValue_popOut hdata hlevel s)
  · rw [readReg_of_ne_outData hr, readValue_recordRead]

/-- An access that completes was made with reset released (R231). -/
theorem resetIn_of_accessWindow {addr : Nat} {access : Nat → State → Result}
    (h : accessWindow addr access s = .next t) : s.resetIn = false := by
  by_contra hs
  rw [accessWindow, if_pos (eq_true_of_ne_false hs)] at h
  cases h

theorem eq_readReg_of_serve {r : Reg} (h : serve (regRead s.params r) s = .next t) :
    s.resetIn = false ∧ t = readReg r s := by
  have hs : s.resetIn = false := resetIn_of_accessWindow h
  exact ⟨hs, Host.Outcome.next.inj (h.symm.trans (serve_regRead hs r))⟩

/-! ### Writes -/

@[simp] theorem writeReg_errors (r : Reg) (v : Word) (s : State) : (writeReg r v s).errors = s.errors := by
  cases r <;> rfl

@[simp] theorem writeReg_params (r : Reg) (v : Word) (s : State) : (writeReg r v s).params = s.params := by
  cases r <;> rfl

@[simp] theorem writeReg_reads (r : Reg) (v : Word) (s : State) : (writeReg r v s).reads = s.reads := by
  cases r <;> rfl

@[simp] theorem writeReg_received (r : Reg) (v : Word) (s : State) : (writeReg r v s).received = s.received := by
  cases r <;> rfl

/-- The frame of a write: no register shows a field that a write of another register stores. -/
theorem readValue_writeReg_of_ne {r q : Reg} (hq : q ≠ r) (v : Word) (s : State) :
    readValue q (writeReg r v s) = readValue q s := by
  cases r with
  | cmd | pckAcc | crcVal | outData | outLevel => rfl
  | status | hdrTotal | hdrCfg | wakeAddr | wakeReg | wakeVal => cases q <;> simp [writeReg, readValue] at hq ⊢

theorem eq_writeReg_of_serve {r : Reg} (hr : r ≠ .cmd) {v : Word}
    (h : serve (regWrite s.params r v) s = .next t) : s.resetIn = false ∧ t = writeReg r v s := by
  have hs : s.resetIn = false := resetIn_of_accessWindow h
  exact ⟨hs, Host.Outcome.next.inj (h.symm.trans (serve_regWrite hs hr v))⟩

/-! ### Reserved bits (R36) -/

/-- How many bits of a register, from bit 0 up, are not reserved (register map of 10_state.md). -/
def usedBits : Reg → Nat
  | .status => 4
  | .wakeAddr => 8
  | .hdrCfg | .outData => 9
  | .pckAcc | .crcVal | .hdrTotal | .wakeReg | .wakeVal => 16
  | .cmd | .outLevel => 32

/-- The reserved bits of a register are those above its used ones. -/
theorem reservedBits_eq_shiftLeft (r : Reg) : reservedBits r = BitVec.allOnes 32 <<< usedBits r := by
  cases r <;> decide

theorem getLsbD_reservedBits {k : Nat} (hk : k < 32) (r : Reg) :
    (reservedBits r).getLsbD k = decide (usedBits r ≤ k) := by
  rw [reservedBits_eq_shiftLeft, BitVec.getLsbD_shiftLeft, BitVec.getLsbD_allOnes, decide_eq_true hk, Bool.true_and,
    decide_eq_true (show k - usedBits r < 32 by omega), Bool.and_true, ← decide_not]
  exact decide_eq_decide.mpr Nat.not_lt

theorem setWidth_toNat_lt {n : Nat} (x : BitVec n) : (x.setWidth 32).toNat < 2 ^ n := by
  rw [BitVec.toNat_setWidth]
  exact (Nat.mod_le _ _).trans_lt x.isLt

theorem outDataValue_toNat_lt (out : List Byte) : (outDataValue out).toNat < 2 ^ 9 :=
  match out with
  | [] => by decide
  | _ :: _ => setWidth_toNat_lt _

theorem readValue_toNat_lt (r : Reg) (s : State) : (readValue r s).toNat < 2 ^ usedBits r :=
  match r with
  | .cmd => (0 : Word).isLt
  | .outLevel => BitVec.isLt _
  | .outData => outDataValue_toNat_lt s.out
  | .status | .pckAcc | .crcVal | .hdrTotal | .hdrCfg | .wakeAddr | .wakeReg | .wakeVal => setWidth_toNat_lt _

/-- Two words that agree outside the reserved bits of a register agree in its used bits. -/
theorem getLsbD_eq_of_and_not_reservedBits {r : Reg} {v v' : Word}
    (h : v &&& ~~~reservedBits r = v' &&& ~~~reservedBits r) {k : Nat} (hk : k < usedBits r) :
    v.getLsbD k = v'.getLsbD k := by
  by_cases hlt : k < 32
  · simpa only [BitVec.getLsbD_and, BitVec.getLsbD_not, getLsbD_reservedBits hlt, hlt, Nat.not_le.mpr hk, decide_true,
      decide_false, Bool.not_false, Bool.and_true] using congrArg (BitVec.getLsbD · k) h
  · rw [BitVec.getLsbD_of_ge v k (by omega), BitVec.getLsbD_of_ge v' k (by omega)]

/-- A field of a written word that lies in the used bits is the same in two words that agree there. -/
theorem extractLsb'_eq_of_and_not_reservedBits {r : Reg} {v v' : Word}
    (h : v &&& ~~~reservedBits r = v' &&& ~~~reservedBits r) {len : Nat} (hlen : len ≤ usedBits r) :
    v.extractLsb' 0 len = v'.extractLsb' 0 len := by
  ext k hk
  rw [BitVec.getElem_extractLsb', BitVec.getElem_extractLsb', Nat.zero_add]
  exact getLsbD_eq_of_and_not_reservedBits h (hk.trans_le hlen)

theorem writeReg_eq_of_and_not_reservedBits {r : Reg} {v v' : Word}
    (h : v &&& ~~~reservedBits r = v' &&& ~~~reservedBits r) (s : State) : writeReg r v s = writeReg r v' s := by
  have hfield {len : Nat} (hlen : len ≤ usedBits r) := extractLsb'_eq_of_and_not_reservedBits h hlen
  cases r with
  | status => simp only [writeReg, clearStatus, statusAfterWrite, hfield (len := 4) (le_refl 4)]
  | hdrCfg =>
    have hcrypt : wordCrypt v = wordCrypt v' := getLsbD_eq_of_and_not_reservedBits h (by decide)
    simp only [writeReg, wordByte, hfield (len := 8) (by decide), hcrypt]
  | wakeAddr => simp only [writeReg, wordByte, hfield (len := 8) (by decide)]
  | hdrTotal | wakeReg | wakeVal => simp only [writeReg, wordHalf, hfield (len := 16) (by decide)]
  | cmd | pckAcc | crcVal | outData | outLevel => rfl

theorem readValue_and_reservedBits (r : Reg) (s : State) : readValue r s &&& reservedBits r = 0 := by
  apply BitVec.eq_of_getLsbD_eq
  intro k hk
  rw [BitVec.getLsbD_and, getLsbD_reservedBits hk]
  by_cases hused : usedBits r ≤ k
  · have hzero : (readValue r s).getLsbD k = false :=
      Nat.testBit_lt_two_pow ((readValue_toNat_lt r s).trans_le (Nat.pow_le_pow_right two_pos hused))
    simp [hzero]
  · simp [hused]

/-- Reserved bits ignore writes, of `CMD` (which has none) as of the other registers, and whether or not the access is
performed. -/
theorem serve_regWrite_eq_of_and_not_reservedBits {r : Reg} {v v' : Word}
    (h : v &&& ~~~reservedBits r = v' &&& ~~~reservedBits r) (s : State) :
    serve (regWrite s.params r v) s = serve (regWrite s.params r v') s := by
  by_cases hr : r = .cmd
  · subst hr
    have hv : v = v' := BitVec.eq_of_getLsbD_eq fun _ hk => getLsbD_eq_of_and_not_reservedBits h hk
    rw [hv]
  · cases hs : s.resetIn with
    | true => simp [serve, regWrite, accessWindow, hs]
    | false => rw [serve_regWrite hs hr, serve_regWrite hs hr, writeReg_eq_of_and_not_reservedBits h]

/-! ### Host program lines (R87, R88) -/

theorem assembleLines_cons {p : Params} {l : BasicLine} {ls : List BasicLine} {e : HostEvent} {es : List HostEvent}
    (hl : assembleLine p l = some e) (hls : assembleLines p ls = some es) :
    assembleLines p (l :: ls) = some (e :: es) := by
  simp only [assembleLines, hl, hls]

/-- A `wr` line of a number that is a word is the write of that word. -/
theorem assembleLine_wr (p : Params) (r : Reg) (v : Word) :
    assembleLine p (.wr r v.toNat) = some (regWrite p r v) := by
  rw [assembleLine, assembleWrite, if_pos v.isLt, BitVec.ofNat_toNat, BitVec.setWidth_eq]
  rfl

theorem assembleLines_wr (p : Params) (writes : List (Reg × Word)) :
    assembleLines p (writes.map fun w => .wr w.1 w.2.toNat) = some (writes.map fun w => regWrite p w.1 w.2) := by
  induction writes with
  | nil => rfl
  | cons w ws ih => exact assembleLines_cons (assembleLine_wr p w.1 w.2) ih

theorem assembleLines_rd (p : Params) (r : Reg) (n : Nat) :
    assembleLines p (List.replicate n (.rd r)) = some (List.replicate n (regRead p r)) := by
  induction n with
  | zero => rfl
  | succ n ih => exact assembleLines_cons rfl ih

theorem serveAll_cons_of_next {e : HostEvent} (h : serve e s = .next t) (es : List HostEvent) :
    serveAll (e :: es) s = serveAll es t := by
  rw [serveAll, h]

/-- A run of writes of registers other than `CMD` completes, each write done in the state the one before left. -/
theorem serveAll_regWrites (h : s.resetIn = false) (writes : List (Reg × Word)) (hw : ∀ w ∈ writes, w.1 ≠ .cmd) :
    serveAll (writes.map fun w => regWrite s.params w.1 w.2) s =
      .next (writes.foldl (fun u w => writeReg w.1 w.2 u) s) := by
  induction writes generalizing s with
  | nil => rfl
  | cons w ws ih =>
    have hrest := ih (s := writeReg w.1 w.2 s) (by simp [h]) fun u hu => hw u (List.mem_cons_of_mem w hu)
    rw [writeReg_params] at hrest
    rw [List.map_cons, serveAll_cons_of_next (serve_regWrite h (hw w List.mem_cons_self) w.2), hrest, List.foldl_cons]

/-- Reading `OUT_DATA` as often as there are bytes in `OUT`, or less often, receives them in order (R34, R60). -/
theorem serveAll_read_outData (h : s.resetIn = false) {n : Nat} (hn : n ≤ s.out.length) :
    serveAll (List.replicate n (regRead s.params .outData)) s = .next { s with
      out := s.out.drop n, received := s.received ++ s.out.take n,
      reads := s.reads ++ (s.out.take n).map (fun b => BitVec.ofNat 32 (256 + b.toNat)) } := by
  induction n generalizing s with
  | zero => simp [serveAll]
  | succ n ih =>
    obtain ⟨b, rest, hout⟩ := List.exists_cons_of_length_pos (Nat.zero_lt_of_lt hn)
    rw [hout, List.length_cons, Nat.succ_le_succ_iff] at hn
    have hparams : (readReg .outData s).params = s.params := by simp [readReg, readEffect]
    have hrest := ih (s := readReg .outData s) (by simp [h]) (by simpa [readReg_outData_of_cons hout] using hn)
    rw [hparams] at hrest
    rw [List.replicate_succ, serveAll_cons_of_next (serve_regRead h .outData), hrest, readReg_outData_of_cons hout]
    simp [hout]

/-- The writes of the lines `hdr.cfg`, `wake.cfg` and `clr.status` (R88), in order. -/
def configurationWrites (total reg val : Half) (offset addr : Byte) (crypt : Bool) : List (Reg × Word) :=
  [(.hdrTotal, total.setWidth 32), (.hdrCfg, hdrCfgWord crypt offset), (.wakeAddr, addr.setWidth 32),
    (.wakeReg, reg.setWidth 32), (.wakeVal, val.setWidth 32), (.status, 0xF)]

theorem expand_configurationLines (total reg val : Half) (offset addr : Byte) (crypt : Bool) :
    [Line.hdrCfg total.toNat offset.toNat crypt.toNat, .wakeCfg addr.toNat reg.toNat val.toNat, .clrStatus].flatMap
      expand = (configurationWrites total reg val offset addr crypt).map fun w => .wr w.1 w.2.toNat := by
  have hhalf (v : Half) : (v.setWidth 32).toNat = v.toNat := BitVec.toNat_setWidth_of_le (by decide)
  have hbyte (b : Byte) : (b.setWidth 32).toNat = b.toNat := BitVec.toNat_setWidth_of_le (by decide)
  simp [expand, configurationWrites, hhalf, hbyte, hdrCfgWord_toNat]

/-! ### The obligations -/

/-- Settles O15: a read returns the four bits zero-extended, a write is `clearStatus`, and by `serve_errors` an event
that raises no error sets no bit, while one that raises an error sets only that error's. -/
theorem statusBitsAreWriteOneToClear : Obligations.StatusBitsAreWriteOneToClear := by
  refine ⟨fun s v h => ⟨⟨_, serve_regRead h .status, ?_⟩, ⟨_, serve_regWrite h (r := .status) (by decide) v, ?_⟩⟩, ?_⟩
  · have hlt : (readValue .status s).toNat < 16 := readValue_toNat_lt .status s
    simpa [readValue, hasStatus, codeOf] using hlt
  · intro k hk
    simp [statusAfterWrite, hk]
  · intro e s t c h hclear hset
    obtain ⟨-, hkept⟩ | ⟨d, herrors, hstatus, -⟩ := serve_errors h
    · simp [hkept c hset] at hclear
    · have hcd : c = d := by simpa [hstatus, hasStatus_statusAfterError, hclear] using hset
      rw [herrors, hcd]

/-- Settles O18: reserved bits lie above every value read, and no used field of a written word reaches them. -/
theorem reservedBitsReadZeroAndIgnoreWrites : Obligations.ReservedBitsReadZeroAndIgnoreWrites :=
  ⟨readValue_and_reservedBits, fun _ s _ _ h => serve_regWrite_eq_of_and_not_reservedBits h s,
    fun r s v hr hs => ⟨_, serve_regWrite hs hr v, writeReg_errors r v s⟩⟩

/-- Settles O21: the frames of `readReg` and `writeReg`, field by field. -/
theorem registerAccessFrame : Obligations.RegisterAccessFrame := by
  constructor
  · intro r q s t h hq
    obtain ⟨hparams, hpending, -⟩ := serve_keeps h
    obtain ⟨-, rfl⟩ := eq_readReg_of_serve h
    exact ⟨readValue_readReg hq s, readReg_errors r s, hparams, readReg_resetIn r s, hpending⟩
  · intro r q s t v hr h hq
    obtain ⟨hparams, hpending, -⟩ := serve_keeps h
    obtain ⟨-, rfl⟩ := eq_writeReg_of_serve hr h
    exact ⟨readValue_writeReg_of_ne hq v s, writeReg_out r v s, writeReg_errors r v s, writeReg_reads r v s,
      writeReg_received r v s, hparams, writeReg_resetIn r v s, hpending⟩

/-- Settles O56: `drain n` is `n` reads of `OUT_DATA`. -/
theorem drainReceivesTheBytesInOrder : Obligations.DrainReceivesTheBytesInOrder := by
  intro s n h hn
  refine ⟨_, ?_, serveAll_read_outData h hn⟩
  rw [assemble, List.flatMap_singleton]
  exact assembleLines_rd s.params .outData n

/-- Settles O57: the lines are six register writes, and each register keeps the value its word was made from. -/
theorem configurationLinesConfigureTheBlock : Obligations.ConfigurationLinesConfigureTheBlock := by
  intro s total reg val offset addr crypt h
  refine ⟨_, ?_, (serveAll_regWrites h (configurationWrites total reg val offset addr crypt) ?_).trans ?_⟩
  · rw [assemble, expand_configurationLines, assembleLines_wr]
  · simp [configurationWrites]
  · simp only [configurationWrites, List.foldl_cons, List.foldl_nil, writeReg, clearStatus, statusAfterWrite_all,
      wordHalf_setWidth, wordByte_setWidth, wordByte_hdrCfgWord, wordCrypt_hdrCfgWord]

/-- Settles O13: the three registers show their fields, and `writeReg` gives a write of them no effect. -/
theorem readOnlyRegistersIgnoreWrites : Obligations.ReadOnlyRegistersIgnoreWrites := by
  intro s v h
  exact ⟨serve_regRead h .pckAcc, serve_regWrite h (r := .pckAcc) (by decide) v,
    wordByte_setWidth_half s.acc, serve_regRead h .crcVal,
    serve_regWrite h (r := .crcVal) (by decide) v, serve_regRead h .outLevel,
    serve_regWrite h (r := .outLevel) (by decide) v⟩

/-- Settles O14: `readReg` and `writeReg` at the five configuration registers. -/
theorem configurationRegistersStoreTheirFields : Obligations.ConfigurationRegistersStoreTheirFields := by
  intro s v h
  have hwrite {r : Reg} (hr : r ≠ .cmd) := serve_regWrite h hr v
  exact ⟨serve_regRead h .hdrTotal, hwrite (r := .hdrTotal) (by decide),
    ⟨_, serve_regRead h .hdrCfg, readValue_hdrCfg s ▸ hdrCfgWord_toNat_eq_add s.crypt s.startOffset⟩,
    hwrite (r := .hdrCfg) (by decide),
    serve_regRead h .wakeAddr, hwrite (r := .wakeAddr) (by decide), serve_regRead h .wakeReg,
    hwrite (r := .wakeReg) (by decide), serve_regRead h .wakeVal, hwrite (r := .wakeVal) (by decide)⟩

/-- Settles O16: the read of a non-empty and of an empty `OUT`, and the write that `writeReg` ignores. -/
theorem outDataReadPopsTheHead : Obligations.OutDataReadPopsTheHead := by
  intro s h
  have hread := serve_regRead h .outData
  refine ⟨fun b rest hout => ⟨BitVec.ofNat 32 (256 + b.toNat), ?_, ?_⟩, fun hout => ?_,
    serve_regWrite h (r := .outData) (by decide)⟩
  · rwa [readReg_outData_of_cons hout] at hread
  · have hb := b.isLt
    rw [BitVec.toNat_ofNat]; omega
  · rwa [readReg_outData_of_nil hout] at hread

/-- Settles O17: the read shows 0, and a written word decodes to a command or is illegal. -/
theorem cmdReadsZeroAndIssuesCommands : Obligations.CmdReadsZeroAndIssuesCommands := by
  intro s h
  refine ⟨serve_regRead h .cmd, fun w => ?_⟩
  cases hw : decode w with
  | command i => exact .inl ⟨i, rfl, issuesCommand_of_decode hw s h⟩
  | illegal why => exact .inr ⟨why, rfl, raisesOnlyIll_of_decode hw s h⟩

/-- Settles O42: `State.reset` is the reset state of the parameters of log 3, and the values of R41 do not depend on
the parameters. -/
theorem resetValuesOfTheState : Obligations.ResetValuesOfTheState := by
  intro s hs
  obtain ⟨p, rfl⟩ : ∃ p, s = State.resetWith p := hs.elim (fun h => ⟨defaultParams, h⟩) id
  exact ⟨rfl, rfl, rfl, rfl, rfl, rfl, rfl, rfl, rfl, rfl⟩

end Sys2Proof.Machine
end

section
/-! The output stream (20_memory.md R60, R63): what an event does to the bytes received and waiting, along any run. -/

namespace Sys2Proof.Machine

variable {s t : State}

/-! ### The command an event issues -/

/-- An event issues a command only as the write of its word to `CMD`. -/
theorem eq_commandWrite_of_commandAt {p : Params} {e : HostEvent} {i : Instr} (h : commandAt p e = some i) :
    ∃ w, e = commandWrite p w ∧ decode w = .command i := by
  cases e with
  | read addr width => cases h
  | setReset b => cases h
  | write addr width w =>
    simp only [commandAt] at h
    split at h
    · obtain ⟨rfl, rfl⟩ := ‹_ ∧ _›
      cases hw : decode w with
      | command j => exact ⟨w, rfl, by simpa [hw] using h⟩
      | illegal why => simp [hw] at h
    · cases h

/-- An event that issues a command and completes is that command's meaning. -/
theorem exec_of_serve {e : HostEvent} {i : Instr} (h : serve e s = .next t) (he : commandAt s.params e = some i) :
    exec i s = .next t := by
  obtain ⟨w, rfl, hw⟩ := eq_commandWrite_of_commandAt he
  exact (issuesCommand_of_decode hw s (resetIn_of_accessWindow h)).symm.trans h

theorem discardsOut_eq_true_iff {p : Params} {e : HostEvent} : discardsOut p e = true ↔
    e = .setReset true ∨ commandAt p e = some .outClear ∨ commandAt p e = some .blkReset := by
  simp [discardsOut, or_assoc]

/-! ### The bytes an event emits -/

theorem emittedBytes_of_commandAt_none {e : HostEvent} (h : commandAt s.params e = none) : emittedBytes e s = [] := by
  simp only [emittedBytes, h]

/-- OUT.CLEAR, BLK.RESET and reset emit nothing. -/
theorem emittedBytes_of_discardsOut {e : HostEvent} (h : discardsOut s.params e = true) : emittedBytes e s = [] := by
  obtain rfl | h | h := discardsOut_eq_true_iff.mp h
  · rfl
  · simp only [emittedBytes, h]
  · simp only [emittedBytes, h]

/-! ### The bytes received and waiting -/

@[simp] theorem readReg_stream (r : Reg) (s : State) :
    (readReg r s).received ++ (readReg r s).out = s.received ++ s.out := by
  cases r with
  | outData => exact popOut_stream s
  | _ => rfl

/-- A command that does not empty `OUT` appends its emission to it (R124, R141, R162). -/
theorem exec_out {i : Instr} (h : exec i s = .next t) (hclear : i ≠ .outClear) (hreset : i ≠ .blkReset)
    {e : HostEvent} (he : commandAt s.params e = some i) : t.out = s.out ++ emittedBytes e s := by
  obtain ⟨_, hi, ht⟩ | ⟨_, hi, ht⟩ | ⟨rfl, hfit, ht⟩ | ⟨rfl, hfull, ht⟩ | ⟨rfl, hfit, ht⟩ | ⟨rfl, hfull, ht⟩ |
    ⟨_, rfl, hindex, ht⟩ | ⟨_, _, rfl, hindex, hfit, ht⟩ | ⟨_, _, rfl, hindex, hfull, ht⟩ | ⟨hi, -⟩ | ⟨hi, -⟩ :=
    exec_cases i s
  case inr.inr.inr.inr.inr.inr.inr.inr.inr.inl => exact absurd hi hclear
  case inr.inr.inr.inr.inr.inr.inr.inr.inr.inr => exact absurd hi hreset
  all_goals obtain rfl := Host.Outcome.next.inj (ht.symm.trans h)
  · obtain ⟨rfl, -⟩ | ⟨_, rfl, -⟩ := hi <;> simp [emittedBytes, he]
  · obtain ⟨rfl, -⟩ | ⟨_, rfl, -⟩ := hi <;> simp [emittedBytes, he]
  · simp [emittedBytes, he, hfit]
  · simp [emittedBytes, he, Nat.not_le.mpr hfull]
  · simp [emittedBytes, he, hfit]
  · simp [emittedBytes, he, Nat.not_le.mpr hfull]
  · simp [emittedBytes, he, hindex]
  · simp [emittedBytes, he, hindex, hfit]
  · simp [emittedBytes, he, hindex, Nat.not_le.mpr hfull]

/-- An event that issues no command and does not assert reset keeps the bytes received and waiting. -/
theorem serve_stream_of_no_command {e : HostEvent} (h : serve e s = .next t) (he : commandAt s.params e = none)
    (hreset : e ≠ .setReset true) : t.received ++ t.out = s.received ++ s.out := by
  obtain ⟨rfl, -⟩ | ⟨-, rfl⟩ | ⟨-, r, -, rfl⟩ | ⟨-, r, v, -, -, rfl⟩ | ⟨-, w, i, rfl, hw, -⟩ | ⟨-, _, _, -, -, rfl⟩ |
    ⟨-, _, _, -, -, -, rfl⟩ | ⟨-, _, _, _, -, -, -, rfl⟩ := serve_cases h
  · exact absurd rfl hreset
  · rfl
  · exact readReg_stream r s
  · simp
  · cases (commandAt_commandWrite hw).symm.trans he
  · rfl
  · rfl
  · rfl

/-- The stream equation of one event: what it emits is appended to the bytes received and waiting (R60). -/
theorem serve_stream {e : HostEvent} (h : serve e s = .next t) (he : discardsOut s.params e = false) :
    t.received ++ t.out = s.received ++ s.out ++ emittedBytes e s := by
  have hkeeps := mt discardsOut_eq_true_iff.mpr (ne_true_of_eq_false he)
  push Not at hkeeps
  obtain ⟨hreset, hclear, hblk⟩ := hkeeps
  cases hi : commandAt s.params e with
  | none => rw [serve_stream_of_no_command h hi hreset, emittedBytes_of_commandAt_none hi, List.append_nil]
  | some i =>
    have hexec := exec_of_serve h hi
    obtain ⟨_, hnext, -, -, -, -, hreceived⟩ := exec_next i s
    obtain rfl := Host.Outcome.next.inj (hnext.symm.trans hexec)
    rw [hreceived, exec_out hexec (fun hc => hclear (hc ▸ hi)) (fun hb => hblk (hb ▸ hi)) hi, List.append_assoc]

/-- The three events that empty `OUT` pass no byte to the host. -/
theorem serve_of_discardsOut {e : HostEvent} (h : serve e s = .next t) (he : discardsOut s.params e = true) :
    t.out = [] ∧ t.received = s.received := by
  obtain rfl | he | he := discardsOut_eq_true_iff.mp he
  · obtain rfl := Host.Outcome.next.inj h
    exact ⟨rfl, rfl⟩
  · obtain rfl := Host.Outcome.next.inj (exec_of_serve h he)
    exact ⟨rfl, rfl⟩
  · obtain rfl := Host.Outcome.next.inj (exec_of_serve h he)
    exact ⟨rfl, rfl⟩

/-- The stream equation of a run, by induction on its events. -/
theorem serveAll_stream {es : List HostEvent} (h : serveAll es s = .next t)
    (hes : ∀ e ∈ es, discardsOut s.params e = false) :
    t.received ++ t.out = s.received ++ s.out ++ emittedAll es s := by
  induction es generalizing s with
  | nil =>
    obtain rfl := Host.Outcome.next.inj h
    exact (List.append_nil _).symm
  | cons e es ih =>
    cases he : serve e s with
    | fault f => cases f
    | refused r => simp [serveAll, he] at h
    | next u =>
      obtain ⟨hparams, -, -⟩ := serve_keeps he
      have hrest : ∀ e' ∈ es, discardsOut u.params e' = false :=
        fun e' he' => hparams ▸ hes e' (List.mem_cons_of_mem e he')
      rw [serveAll_cons_of_next he] at h
      rw [ih h hrest, serve_stream he (hes e List.mem_cons_self)]
      simp [emittedAll, he]

/-- An event that raises an error other than `ADDR` does nothing else (R201). -/
theorem eq_raiseError_of_serve {e : HostEvent} {c : ErrCode} (h : serve e s = .next t)
    (herrors : t.errors = s.errors ++ [c]) (hc : c ≠ .addr) : t = raiseError c s := by
  obtain ⟨hkept, -⟩ | ⟨d, hd, -, ht⟩ := serve_errors h
  · simp [hkept] at herrors
  · obtain rfl : d = c := by simpa [hd] using herrors
    exact ht.resolve_right fun ⟨haddr, _⟩ => hc haddr

/-! ### The obligations -/

/-- Settles O52: by induction on the events, from the stream equation of one event (`serve_stream`). -/
theorem outputBytesKeepTheirOrder : Obligations.OutputBytesKeepTheirOrder :=
  ⟨fun _ _ _ h hes => serveAll_stream h hes, fun _ _ _ h he => serve_of_discardsOut h he⟩

/-- Settles O53: `OutPush` by its two cases; an event that raises `OVF` does nothing else, so by the stream equation it
emits nothing. -/
theorem emissionsAreAllOrNothing : Obligations.EmissionsAreAllOrNothing := by
  refine ⟨fun bytes s h => ⟨outPush_of_not_fits h, fun _ => emitThen_of_not_fits h⟩,
    fun bytes s h => ⟨outPush_of_fits h, fun _ => emitThen_of_fits h⟩, ?_⟩
  intro e s t h herrors
  obtain rfl := eq_raiseError_of_serve h herrors (by decide)
  refine ⟨rfl, rfl, ?_⟩
  cases he : discardsOut s.params e with
  | true => exact emittedBytes_of_discardsOut he
  | false => simpa using serve_stream h he

end Sys2Proof.Machine
end

section
/-! Steps and accesses (20_memory.md R50, R52, R55, R56, R70): when an event of the host is performed or refused, what
the steps of a run do, and which register accesses have a side effect. -/

namespace Sys2Proof.Machine

variable {s t : State}

/-! ### Accesses in the window complete -/

theorem accessWindow_base_add (hs : s.resetIn = false) {offset : Nat} (h : offset < 64)
    (access : Nat → State → Result) : accessWindow (s.params.blockBase + offset) access s = access offset s := by
  simp [accessWindow, hs, windowOffset_base_add h]

theorem readWindow_next (offset width : Nat) (s : State) :
    ∃ t, readWindow offset width s = .next t ∧ t.resetIn = s.resetIn := by
  unfold readWindow
  split
  · exact ⟨_, rfl, readReg_resetIn _ s⟩
  · exact ⟨_, rfl, rfl⟩

theorem issueCommand_next (w : Word) (s : State) :
    ∃ t, issueCommand w s = .next t ∧ t.resetIn = s.resetIn := by
  unfold issueCommand
  split
  · obtain ⟨t, ht, -, hreset, -⟩ := exec_next _ s
    exact ⟨t, ht, hreset⟩
  · exact ⟨_, rfl, rfl⟩

theorem writeWindow_next (offset width : Nat) (v : Word) (s : State) :
    ∃ t, writeWindow offset width v s = .next t ∧ t.resetIn = s.resetIn := by
  unfold writeWindow
  split
  · exact issueCommand_next v s
  · exact ⟨_, rfl, writeReg_resetIn _ v s⟩
  · exact ⟨_, rfl, rfl⟩

/-- Every access in the window completes while reset is released, and does not assert it. -/
theorem serve_next_of_windowAccess {e : HostEvent} (hs : s.resetIn = false) (h : windowAccess s.params e = true) :
    ∃ t, serve e s = .next t ∧ t.resetIn = false := by
  have hbase {addr : Nat} (ha : InWindow s.params addr) : ∃ offset < 64, addr = s.params.blockBase + offset :=
    ⟨addr - s.params.blockBase, by omega, by omega⟩
  cases e with
  | setReset b => cases h
  | read addr width =>
    obtain ⟨offset, hlt, rfl⟩ := hbase (of_decide_eq_true h)
    rw [serve, accessWindow_base_add hs hlt, ← hs]
    exact readWindow_next offset width s
  | write addr width v =>
    obtain ⟨offset, hlt, rfl⟩ := hbase (of_decide_eq_true h)
    rw [serve, accessWindow_base_add hs hlt, ← hs]
    exact writeWindow_next offset width v s

/-! ### Refusals (log 5, log 6) -/

/-- The reason for which an access of an address has no meaning. -/
def RefusesAccess (s : State) (addr : Nat) (r : Refusal) : Prop :=
  (s.resetIn = true ∧ r = .accessDuringReset) ∨
  (s.resetIn = false ∧ (addr < s.params.blockBase ∨ s.params.blockBase + 64 ≤ addr) ∧ r = .outsideWindow)

/-- A refusal does not look at the host's queue. -/
@[simp] theorem refusesAccess_pending {addr : Nat} {r : Refusal} {p : List HostEvent} :
    RefusesAccess { s with pending := p } addr r ↔ RefusesAccess s addr r := Iff.rfl

/-- An access whose meaning completes in the window is refused only for its address or the level of reset. -/
theorem accessWindow_eq_refused_iff {addr : Nat} {access : Nat → State → Result} {r : Refusal}
    (hnext : ∀ offset, ∃ t, access offset s = .next t) :
    accessWindow addr access s = .refused r ↔ RefusesAccess s addr r := by
  unfold accessWindow RefusesAccess
  cases hs : s.resetIn with
  | true => simp [eq_comm]
  | false =>
    cases ho : windowOffset s.params addr with
    | none => simp [windowOffset_eq_none.mp ho, eq_comm]
    | some offset =>
      obtain ⟨t, ht⟩ := hnext offset
      obtain ⟨rfl, hlt⟩ := windowOffset_eq_some.mp ho
      simp [ht, hlt]

theorem serve_read_eq_refused_iff {addr width : Nat} {r : Refusal} :
    serve (.read addr width) s = .refused r ↔ RefusesAccess s addr r :=
  accessWindow_eq_refused_iff fun offset => (readWindow_next offset width s).imp fun _ h => h.1

theorem serve_write_eq_refused_iff {addr width : Nat} {v : Word} {r : Refusal} :
    serve (.write addr width v) s = .refused r ↔ RefusesAccess s addr r :=
  accessWindow_eq_refused_iff fun offset => (writeWindow_next offset width v s).imp fun _ h => h.1

theorem serve_setReset (b : Bool) (s : State) :
    ∃ t, serve (.setReset b) s = .next t ∧ t.resetIn = b := by
  cases b with
  | true => exact ⟨_, rfl, rfl⟩
  | false => exact ⟨_, rfl, rfl⟩

/-- A step is refused for the access it performs. -/
theorem step_eq_refused_iff {r : Refusal} : step s = .refused r ↔ ∃ addr width rest,
    (s.pending = .read addr width :: rest ∨ ∃ v, s.pending = .write addr width v :: rest) ∧
      RefusesAccess s addr r := by
  unfold step
  cases hp : s.pending with
  | nil => simp
  | cons e rest =>
    cases e with
    | read addr width => simp [serve_read_eq_refused_iff]
    | write addr width v => simp [serve_write_eq_refused_iff]
    | setReset b =>
      obtain ⟨t, ht, -⟩ := serve_setReset b { s with pending := rest }
      simp [ht]

/-! ### Steps and runs -/

theorem step_of_pending_nil (h : s.pending = []) : step s = .next s := by
  simp only [step, h]

theorem step_of_pending_cons {e : HostEvent} {rest : List HostEvent} (h : s.pending = e :: rest) :
    step s = serve e { s with pending := rest } := by
  simp only [step, h]

theorem run_succ_of_step {n : Nat} (h : step s = .next t) :
    Host.Core.run Sys2Proof.core (n + 1) s = Host.Core.run Sys2Proof.core n t := by
  simp only [Host.Core.run, Sys2Proof.core, h]

theorem run_succ_of_step_refused {n : Nat} {r : Refusal} (h : step s = .refused r) :
    Host.Core.run Sys2Proof.core (n + 1) s = .refused r := by
  simp only [Host.Core.run, Sys2Proof.core, h]

theorem run_of_pending_nil (n : Nat) (h : s.pending = []) : Host.Core.run Sys2Proof.core n s = .next s := by
  induction n with
  | zero => rfl
  | succ n ih => rw [run_succ_of_step (step_of_pending_nil h), ih]

/-- A run of as many steps as there are events at the head of the queue is those events, in order: no event looks at
the queue or changes it. -/
theorem run_eq_serveAll (es rest : List HostEvent) (h : s.pending = es ++ rest) :
    Host.Core.run Sys2Proof.core es.length s = serveAll es { s with pending := rest } := by
  induction es generalizing s with
  | nil =>
    obtain rfl : s.pending = rest := h
    rfl
  | cons e es ih =>
    have hstep : step s = serve e { s with pending := es ++ rest } := step_of_pending_cons h
    have hserve := serve_pending e { s with pending := es ++ rest } rest
    rw [← hstep] at hserve
    cases hs : step s with
    | fault f => cases f
    | refused r =>
      rw [hs] at hserve
      rw [List.length_cons, run_succ_of_step_refused hs, serveAll, hserve]
      rfl
    | next t =>
      obtain ⟨-, hpending, -⟩ := serve_keeps (hstep.symm.trans hs)
      rw [hs] at hserve
      rw [List.length_cons, run_succ_of_step hs, ih hpending]
      exact (serveAll_cons_of_next hserve es).symm

/-! ### What is read (R70, R250) -/

@[simp] theorem popOut_reads (s : State) : (popOut s).reads = s.reads := by
  obtain ⟨-, h⟩ | ⟨_, _, -, h⟩ := popOut_cases s <;> rw [h]

/-- A read of a register observes the value the register had before the read's own side effect. -/
theorem readReg_reads (r : Reg) (s : State) : (readReg r s).reads = s.reads ++ [readValue r s] := by
  cases r <;> simp [readReg, readEffect]

/-- A run only appends to the values read. -/
theorem serveAll_reads {es : List HostEvent} (h : serveAll es s = .next t) : ∃ vs, t.reads = s.reads ++ vs := by
  induction es generalizing s with
  | nil =>
    obtain rfl := Host.Outcome.next.inj h
    exact ⟨[], (List.append_nil _).symm⟩
  | cons e es ih =>
    cases he : serve e s with
    | fault f => cases f
    | refused r => simp [serveAll, he] at h
    | next u =>
      rw [serveAll_cons_of_next he] at h
      obtain ⟨-, -, vs, hvs⟩ := serve_keeps he
      obtain ⟨ws, hws⟩ := ih h
      exact ⟨vs ++ ws, by rw [hws, hvs, List.append_assoc]⟩

/-! ### Address errors and repeated writes (R55, R56) -/

theorem readWindow_of_selectReg_none {offset width : Nat} (h : selectReg offset width = none) (s : State) :
    readWindow offset width s = .next (recordRead 0 (raiseError .addr s)) := by
  simp only [readWindow, h]

theorem writeWindow_of_selectReg_none {offset width : Nat} (h : selectReg offset width = none) (v : Word)
    (s : State) : writeWindow offset width v s = .next (raiseError .addr s) := by
  simp only [writeWindow, h]

theorem statusAfterWrite_idem (v : Word) (st : BitVec 4) :
    statusAfterWrite v (statusAfterWrite v st) = statusAfterWrite v st := by
  simp only [statusAfterWrite, BitVec.and_assoc, BitVec.and_self]

/-- A write of a register repeated is that write once: a field is stored again, a cleared bit stays cleared. -/
theorem writeReg_idem (r : Reg) (v : Word) (s : State) : writeReg r v (writeReg r v s) = writeReg r v s := by
  cases r with
  | status => simp only [writeReg, clearStatus, statusAfterWrite_idem]
  | _ => rfl

/-! ### The fields of `OUT_LEVEL` (R35) -/

theorem readValue_outLevel_low (s : State) :
    (readValue .outLevel s).extractLsb' 0 16 = BitVec.ofNat 16 s.out.length :=
  BitVec.extractLsb'_append_eq_right

theorem readValue_outLevel_high (s : State) :
    (readValue .outLevel s).extractLsb' 16 16 = BitVec.ofNat 16 s.params.outDepth :=
  BitVec.extractLsb'_append_eq_left

/-! ### The obligations -/

/-- Settles O9: `run_eq_serveAll`, and a read observes its register in the state the earlier events left, while the
later events only append to what was read. -/
theorem eventsTakeEffectInOrder : Obligations.EventsTakeEffectInOrder := by
  refine ⟨fun es rest s h => run_eq_serveAll es rest h, ?_⟩
  intro es later s u t r hu hreset ht
  rw [serveAll_append, hu] at ht
  have hlater : serveAll later (readReg r u) = .next t := serveAll_cons_of_next (serve_regRead hreset r) later ▸ ht
  obtain ⟨others, hothers⟩ := serveAll_reads hlater
  exact ⟨others, by rw [hothers, readReg_reads, List.append_assoc, List.singleton_append]⟩

/-- Settles O10: `serve_next_of_windowAccess`, with what every event keeps (`serve_keeps`). -/
theorem windowAccessesComplete : Obligations.WindowAccessesComplete := by
  constructor
  · intro e s hs h
    obtain ⟨t, ht, hreset⟩ := serve_next_of_windowAccess hs h
    obtain ⟨hparams, hpending, -⟩ := serve_keeps ht
    exact ⟨t, ht, hparams, hreset, hpending⟩
  · intro b s
    obtain ⟨t, ht, hreset⟩ := serve_setReset b s
    obtain ⟨hparams, hpending, -⟩ := serve_keeps ht
    exact ⟨t, ht, hparams, hreset, hpending⟩

/-- Settles O11: a step is refused for the access it performs (`step_eq_refused_iff`), and there is no fault. -/
theorem onlyAccessesOutsideTheContractAreRefused : Obligations.OnlyAccessesOutsideTheContractAreRefused := by
  refine ⟨fun s r => step_eq_refused_iff, fun s => ?_⟩
  cases step s with
  | next t => exact .inl ⟨t, rfl⟩
  | fault f => cases f
  | refused r => exact .inr ⟨r, rfl⟩

/-- Settles O12: such an access selects no register, so it raises `ADDR` and a read shows 0. -/
theorem addressErrorsOnlySetAddr : Obligations.AddressErrorsOnlySetAddr := by
  intro s offset width v hs hlt h
  have hnone : selectReg offset width = none := selectReg_eq_none.mpr (by omega)
  constructor
  · rw [serve, accessWindow_base_add hs hlt, readWindow_of_selectReg_none hnone]
    rfl
  · rw [serve, accessWindow_base_add hs hlt, writeWindow_of_selectReg_none hnone]
    rfl

/-- Settles O19: writes are idempotent (`writeReg_idem`), only `OUT_DATA` has a read effect (`readReg_of_ne_outData`);
a repeated PCK.BYTE moves `ACC` on, and a repeated `OUT_DATA` read takes the next byte. -/
theorem sideEffectsOfRegisterAccesses : Obligations.SideEffectsOfRegisterAccesses := by
  refine ⟨?_, ?_, ?_, ?_, ?_⟩
  · intro r s t v hr h
    obtain ⟨hs, rfl⟩ := eq_writeReg_of_serve hr h
    have hagain := serve_regWrite (s := writeReg r v s) (by simp [hs]) hr v
    rwa [writeReg_params, writeReg_idem] at hagain
  · intro r s v hr hs
    simp only [List.mem_cons, List.not_mem_nil, or_false] at hr
    obtain rfl | rfl | rfl | rfl := hr
    · exact serve_regWrite hs (r := .pckAcc) (by decide) v
    · exact serve_regWrite hs (r := .crcVal) (by decide) v
    · exact serve_regWrite hs (r := .outData) (by decide) v
    · exact serve_regWrite hs (r := .outLevel) (by decide) v
  · intro r s hr hs
    rw [serve_regRead hs, readReg_of_ne_outData hr]
    rfl
  · have hbyte : IssuesCommand 0x02000001 (.pckByte 1) := issuesCommand_of_decode (by decide)
    refine ⟨State.reset, _, _, 0x02000001, hbyte _ rfl, hbyte _ rfl, fun h => ?_⟩
    exact absurd (congrArg State.acc h) (by decide)
  · refine ⟨{ State.reset with out := [0x98, 0x04] }, _, _, serve_regRead rfl .outData, serve_regRead rfl .outData, ?_⟩
    decide

/-- Settles O20: the two halves of `OUT_LEVEL` hold numbers that the invariant bounds by 65535. -/
theorem outLevelShowsFillAndDepth : Obligations.OutLevelShowsFillAndDepth := by
  intro s hinv hs
  obtain ⟨-, -, hdepth⟩ := hinv.params
  have hlevel := hinv.level
  refine ⟨hlevel, _, serve_regRead hs .outLevel, ?_, ?_⟩
  · rw [readValue_outLevel_low, BitVec.toNat_ofNat, Nat.mod_eq_of_lt (by omega)]
  · rw [readValue_outLevel_high, BitVec.toNat_ofNat, Nat.mod_eq_of_lt (by omega)]

/-- Settles O6: a step performs the oldest event, and a word that decodes to a command issues it. -/
theorem stepRunsTheDecodedCommand : Obligations.StepRunsTheDecodedCommand := by
  refine ⟨fun s e rest => step_of_pending_cons, fun s w i rest hs hp hw => ?_⟩
  rw [step_of_pending_cons hp]
  exact issuesCommand_of_decode hw { s with pending := rest } hs

/-- Settles O8: each step with an empty queue keeps the state. -/
theorem idleBlockKeepsItsState : Obligations.IdleBlockKeepsItsState :=
  fun n _ h => run_of_pending_nil n h

end Sys2Proof.Machine
end

section
/-! The command word (30_encoding.md): encoding and decoding are inverse to each other, which words are illegal, and
what a host program of command lines does. -/

namespace Sys2Proof

/-! ### Encode and decode (R83, R87) -/

@[simp] theorem opOf_commandOf (w : Word) (o : Op) : opOf (commandOf w o) = o := by cases o <;> rfl

/-- The word of a command encodes the command's row: the operand lies in bits the row's mask leaves free. -/
theorem encodesRow_encode (i : Instr) : encodesRow (encode i) (opOf i) = true := by
  cases i with
  | pckByte b => exact (encodesRow_iff _ .pckByte).mpr (encode_pckByte b ▸ append_byte_upper _ b)
  | crcByte b => exact (encodesRow_iff _ .crcByte).mpr (encode_crcByte b ▸ append_byte_upper _ b)
  | hdrEmit h => exact (encodesRow_iff _ .hdrEmit).mpr (encode_hdrEmit h ▸ append_half_upper _ h)
  | _ => decide

/-- The operand fields read the operand of a command's word back. -/
theorem commandOf_encode (i : Instr) : commandOf (encode i) (opOf i) = i := by
  cases i with
  | pckByte b => exact congrArg Instr.pckByte (encode_pckByte b ▸ append_byte_lower _ b)
  | crcByte b => exact congrArg Instr.crcByte (encode_crcByte b ▸ append_byte_lower _ b)
  | hdrEmit h => exact congrArg Instr.hdrEmit (encode_hdrEmit h ▸ append_half_lower _ h)
  | _ => rfl

theorem decode_encode (i : Instr) : decode (encode i) = .command i := by
  rw [decode_of_encodesRow (encodesRow_encode i), commandOf_encode]

/-- A word that encodes a row is the word of the row's command: what the mask keeps is the row's, and what it leaves
free is the operand. -/
theorem encode_commandOf {w : Word} {o : Op} (h : encodesRow w o = true) : encode (commandOf w o) = w := by
  rw [encodesRow_iff] at h
  cases o with
  | pckByte => exact (encode_pckByte _).trans ((word_eq_append_byte w).trans (by rw [h]; rfl)).symm
  | crcByte => exact (encode_crcByte _).trans ((word_eq_append_byte w).trans (by rw [h]; rfl)).symm
  | hdrEmit => exact (encode_hdrEmit _).trans ((word_eq_append_half w).trans (by rw [h]; rfl)).symm
  | _ =>
    subst h
    decide

theorem encodesRow_unique {w : Word} {o o' : Op} (h : encodesRow w o = true) (h' : encodesRow w o' = true) : o = o' :=
  opcOf_injective ((opcField_of_encodesRow h).symm.trans (opcField_of_encodesRow h'))

theorem decode_eq_command_iff {w : Word} {i : Instr} :
    decode w = .command i ↔ encodesRow w (opOf i) = true ∧ commandOf w (opOf i) = i := by
  constructor
  · intro h
    obtain ⟨o, ho, rfl⟩ := encodesRow_of_decode h
    rw [opOf_commandOf]
    exact ⟨ho, rfl⟩
  · rintro ⟨h, hi⟩
    rw [decode_of_encodesRow h, hi]

/-! ### Illegal words (R84) -/

theorem any_opcodeMap_iff (w : Word) :
    opcodeMap.any (fun o => opcOf o == opcField w) = true ↔ ∃ o, opcField w = opcOf o := by
  rw [List.any_eq_true]
  constructor
  · rintro ⟨o, -, h⟩
    exact ⟨o, (eq_of_beq h).symm⟩
  · rintro ⟨o, h⟩
    exact ⟨o, mem_opcodeMap o, beq_iff_eq.mpr h.symm⟩

/-- Decoding by the word's opcode: no row has it, or a row has it that the word encodes or does not encode. -/
theorem decode_cases_opcode (w : Word) :
    ((∀ o, opcField w ≠ opcOf o) ∧ decode w = .illegal .unassignedOpcode) ∨
    ∃ o, opcField w = opcOf o ∧
      (encodesRow w o = true ∧ decode w = .command (commandOf w o) ∨
        ¬ encodesRow w o = true ∧ decode w = .illegal .mustBeZeroBitSet) := by
  obtain ⟨o, ho, hw⟩ | ⟨hnone, hw⟩ := decode_cases w
  · exact .inr ⟨o, opcField_of_encodesRow ho, .inl ⟨ho, hw⟩⟩
  · by_cases h : ∃ o, opcField w = opcOf o
    · rw [if_pos ((any_opcodeMap_iff w).mpr h)] at hw
      obtain ⟨o, ho⟩ := h
      exact .inr ⟨o, ho, .inr ⟨by simp [hnone o], hw⟩⟩
    · rw [if_neg (mt (any_opcodeMap_iff w).mp h)] at hw
      exact .inl ⟨not_exists.mp h, hw⟩

theorem decode_eq_unassignedOpcode_iff {w : Word} :
    decode w = .illegal .unassignedOpcode ↔ ∀ o, opcField w ≠ opcOf o := by
  obtain ⟨h, hw⟩ | ⟨o, ho, ⟨-, hw⟩ | ⟨-, hw⟩⟩ := decode_cases_opcode w
  · exact iff_of_true hw h
  · exact iff_of_false (by simp [hw]) fun h => h o ho
  · exact iff_of_false (by simp [hw]) fun h => h o ho

theorem decode_eq_mustBeZeroBitSet_iff {w : Word} :
    decode w = .illegal .mustBeZeroBitSet ↔ ∃ o, opcField w = opcOf o ∧ ¬ encodesRow w o = true := by
  obtain ⟨h, hw⟩ | ⟨o, ho, ⟨hrow, hw⟩ | ⟨hrow, hw⟩⟩ := decode_cases_opcode w
  · exact iff_of_false (by simp [hw]) fun ⟨o, ho, _⟩ => h o ho
  · refine iff_of_false (by simp [hw]) fun ⟨o', ho', hrow'⟩ => hrow' ?_
    rwa [opcOf_injective (ho'.symm.trans ho)]
  · exact iff_of_true hw ⟨o, ho, hrow⟩

/-- The ranges of opcodes R84 leaves unassigned. -/
theorem forall_ne_opcOf_iff (c : Byte) : (∀ o, c ≠ opcOf o) ↔
    c.toNat = 0x00 ∨ (0x03 ≤ c.toNat ∧ c.toNat ≤ 0x0F) ∨ (0x13 ≤ c.toNat ∧ c.toNat ≤ 0x1F) ∨
    (0x21 ≤ c.toNat ∧ c.toNat ≤ 0x2F) ∨ (0x31 ≤ c.toNat ∧ c.toNat ≤ 0xEF) ∨
    (0xF1 ≤ c.toNat ∧ c.toNat ≤ 0xFE) := by
  have hc := c.isLt
  constructor
  · intro h
    have hne (o : Op) : c.toNat ≠ (opcOf o).toNat := fun e => h o (BitVec.eq_of_toNat_eq e)
    have h01 : c.toNat ≠ 0x01 := hne .pckInit
    have h02 : c.toNat ≠ 0x02 := hne .pckByte
    have h10 : c.toNat ≠ 0x10 := hne .crcInit
    have h11 : c.toNat ≠ 0x11 := hne .crcByte
    have h12 : c.toNat ≠ 0x12 := hne .crcEmit
    have h20 : c.toNat ≠ 0x20 := hne .wakeEmit
    have h30 : c.toNat ≠ 0x30 := hne .hdrEmit
    have hF0 : c.toNat ≠ 0xF0 := hne .outClear
    have hFF : c.toNat ≠ 0xFF := hne .blkReset
    omega
  · rintro h o rfl
    revert h
    cases o <;> decide

/-- The bits each format requires to be 0, row by row (R80, R81). -/
theorem exists_opcode_not_encodesRow_iff (w : Word) : (∃ o, opcField w = opcOf o ∧ ¬ encodesRow w o = true) ↔
    ((opcField w = 0x01 ∨ opcField w = 0x10 ∨ opcField w = 0x12 ∨ opcField w = 0x20 ∨ opcField w = 0xF0 ∨
      opcField w = 0xFF) ∧ w.extractLsb' 0 24 ≠ 0) ∨
    ((opcField w = 0x02 ∨ opcField w = 0x11) ∧ w.extractLsb' 8 16 ≠ 0) ∨
    (opcField w = 0x30 ∧ w.extractLsb' 16 8 ≠ 0) := by
  simp only [encodesRow_iff_fields]
  constructor
  · rintro ⟨o, ho, h⟩
    cases o <;> simp_all [opcOf, formatOf]
  · rintro (⟨h, hz⟩ | ⟨h, hz⟩ | ⟨h, hz⟩)
    · obtain h | h | h | h | h | h := h
      exacts [⟨.pckInit, h, fun e => hz e.2⟩, ⟨.crcInit, h, fun e => hz e.2⟩, ⟨.crcEmit, h, fun e => hz e.2⟩,
        ⟨.wakeEmit, h, fun e => hz e.2⟩, ⟨.outClear, h, fun e => hz e.2⟩, ⟨.blkReset, h, fun e => hz e.2⟩]
    · obtain h | h := h
      exacts [⟨.pckByte, h, fun e => hz e.2⟩, ⟨.crcByte, h, fun e => hz e.2⟩]
    · exact ⟨.hdrEmit, h, fun e => hz e.2⟩

end Sys2Proof

namespace Sys2Proof.Machine

variable {s : State}

/-! ### Command lines (R87) -/

/-- The line of a command: its mnemonic with its operand. -/
def commandLine (i : Instr) : BasicLine := .mnemonic (opOf i) i.operand

/-- Every command's operand fits the format of the command's row. -/
theorem operandFits_operand (i : Instr) : operandFits (formatOf (opOf i)) i.operand = true := by
  cases i with
  | pckByte b => exact Laws.EncodedFields.byte_fits b
  | crcByte b => exact Laws.EncodedFields.byte_fits b
  | hdrEmit h => exact Laws.EncodedFields.half_fits h
  | _ => decide

theorem assembleLine_commandLine (p : Params) (i : Instr) :
    assembleLine p (commandLine i) = some (commandWrite p (encode i)) := by
  rw [commandLine, assembleLine, if_pos (operandFits_operand i)]
  rfl

theorem assembleLine_mnemonic_of_lt (p : Params) {o : Op} {n : Nat} (h : (formatOf o).maxOperand < n) :
    assembleLine p (.mnemonic o n) = none := by
  simp [assembleLine, operandFits, h]

/-- An operand that fits a row's format is the operand of a command of that row. -/
theorem exists_command_of_operandFits {o : Op} {n : Nat} (h : operandFits (formatOf o) n = true) :
    ∃ i, opOf i = o ∧ i.operand = n := by
  have hle : n ≤ (formatOf o).maxOperand := of_decide_eq_true h
  have hbyte (hn : n ≤ 255) : (BitVec.ofNat 8 n).toNat = n := Nat.mod_eq_of_lt (by omega)
  have hhalf (hn : n ≤ 65535) : (BitVec.ofNat 16 n).toNat = n := Nat.mod_eq_of_lt (by omega)
  cases o with
  | pckInit => exact ⟨.pckInit, rfl, (Nat.le_zero.mp hle).symm⟩
  | pckByte => exact ⟨.pckByte (BitVec.ofNat 8 n), rfl, hbyte hle⟩
  | crcInit => exact ⟨.crcInit, rfl, (Nat.le_zero.mp hle).symm⟩
  | crcByte => exact ⟨.crcByte (BitVec.ofNat 8 n), rfl, hbyte hle⟩
  | crcEmit => exact ⟨.crcEmit, rfl, (Nat.le_zero.mp hle).symm⟩
  | wakeEmit => exact ⟨.wakeEmit, rfl, (Nat.le_zero.mp hle).symm⟩
  | hdrEmit => exact ⟨.hdrEmit (BitVec.ofNat 16 n), rfl, hhalf hle⟩
  | outClear => exact ⟨.outClear, rfl, (Nat.le_zero.mp hle).symm⟩
  | blkReset => exact ⟨.blkReset, rfl, (Nat.le_zero.mp hle).symm⟩

/-- A mnemonic line that assembles is the line of a command. -/
theorem eq_commandLine_of_assembleLine {p : Params} {o : Op} {n : Nat} {e : HostEvent}
    (h : assembleLine p (.mnemonic o n) = some e) :
    ∃ i, opOf i = o ∧ i.operand = n ∧ e = commandWrite p (encode i) := by
  by_cases hfits : operandFits (formatOf o) n = true
  · obtain ⟨i, rfl, rfl⟩ := exists_command_of_operandFits hfits
    exact ⟨i, rfl, rfl, Option.some.inj (h.symm.trans (assembleLine_commandLine p i))⟩
  · simp [assembleLine, hfits] at h

theorem assembleLines_commandLines (p : Params) (is : List Instr) :
    assembleLines p (is.map commandLine) = some (is.map fun i => commandWrite p (encode i)) := by
  induction is with
  | nil => rfl
  | cons i is ih => exact assembleLines_cons (assembleLine_commandLine p i) ih

/-! ### Runs of commands -/

/-- The commands of a list executed one after the other. -/
def execAll : List Instr → State → Result
  | [], s => .next s
  | i :: is, s =>
    match exec i s with
    | .next t => execAll is t
    | .fault f => .fault f
    | .refused r => .refused r

theorem serve_commandWrite_encode (h : s.resetIn = false) (i : Instr) :
    serve (commandWrite s.params (encode i)) s = exec i s :=
  issuesCommand_of_decode (decode_encode i) s h

/-- Writing the words of commands to `CMD` executes the commands. -/
theorem serveAll_commandWrites (h : s.resetIn = false) (is : List Instr) :
    serveAll (is.map fun i => commandWrite s.params (encode i)) s = execAll is s := by
  induction is generalizing s with
  | nil => rfl
  | cons i is ih =>
    obtain ⟨t, ht, hparams, hreset, -⟩ := exec_next i s
    have hrest := ih (hreset.trans h)
    rw [hparams] at hrest
    rw [List.map_cons, serveAll_cons_of_next ((serve_commandWrite_encode h i).trans ht), hrest, execAll, ht]

/-- A host program that expands to the lines of commands assembles, and its run executes them in order (R87, R88). -/
theorem run_of_expand_eq_commandLines (h : s.resetIn = false) {program : List Line} {is : List Instr}
    (hp : program.flatMap expand = is.map commandLine) :
    ∃ es, assemble s.params program = some es ∧ serveAll es s = execAll is s :=
  ⟨_, by rw [assemble, hp, assembleLines_commandLines], serveAll_commandWrites h is⟩

/-- PCK.BYTEs at the head of a run move `ACC` through their bytes (R103). -/
theorem execAll_pckBytes (bytes : List Byte) (is : List Instr) (s : State) :
    execAll (bytes.map .pckByte ++ is) s = execAll is { s with acc := pckRun s.acc bytes } := by
  induction bytes generalizing s with
  | nil => rfl
  | cons b bytes ih => exact ih { s with acc := pckStep s.acc b }

/-- CRC.BYTEs at the head of a run move `CRC` through their bytes (R123). -/
theorem execAll_crcBytes (bytes : List Byte) (is : List Instr) (s : State) :
    execAll (bytes.map .crcByte ++ is) s = execAll is { s with crc := crcRun s.crc bytes } := by
  induction bytes generalizing s with
  | nil => rfl
  | cons b bytes ih => exact ih { s with crc := crcStep s.crc b }

theorem expandPckSeq_eq (bytes : List Byte) :
    expandPckSeq (bytes.map BitVec.toNat) = (.pckInit :: bytes.map .pckByte).map commandLine := by
  simp [expandPckSeq, commandLine, opOf, Instr.operand, Function.comp_def]

theorem expandCrcSeq_eq (bytes : List Byte) :
    expandCrcSeq (bytes.map BitVec.toNat) = (.crcInit :: bytes.map .crcByte).map commandLine := by
  simp [expandCrcSeq, commandLine, opOf, Instr.operand, Function.comp_def]

/-! ### The emitting commands at the end of a run -/

theorem exec_crcEmit_of_fits (h : s.out.length + 2 ≤ s.params.outDepth) :
    exec .crcEmit s = .next { s with out := s.out ++ littleEndian s.crc } :=
  congrArg _ (emitThen_of_fits (bytes := littleEndian s.crc) h)

theorem exec_hdrEmit_of_fits {half : Half} {index : Byte}
    (hindex : pageIndex s.hdrTotal half s.startOffset s.crypt = some index)
    (h : s.out.length + 6 ≤ s.params.outDepth) :
    exec (.hdrEmit half) s = .next { s with out := s.out ++ headerBytes index (lowByte s.acc) } := by
  simp only [exec, execHdrEmit, hindex]
  exact congrArg _ (emitThen_of_fits (bytes := headerBytes index (lowByte s.acc)) h)

theorem execAll_singleton (i : Instr) (s : State) : execAll [i] s = exec i s := by
  obtain ⟨t, ht, -⟩ := exec_next i s
  simp only [execAll, ht]

/-! ### The obligations -/

/-- Settles O2: the word of a command encodes the command's row, and the operand field holds the operand. -/
theorem decodeOfEncodeIsTheCommand : Obligations.DecodeOfEncodeIsTheCommand :=
  fun i _ => decode_encode i

/-- Settles O3: a word decodes through a row it encodes, and is then the word of that row's command. -/
theorem encodeOfDecodeIsTheWord : Obligations.EncodeOfDecodeIsTheWord := by
  intro w i h
  obtain ⟨o, ho, rfl⟩ := encodesRow_of_decode h
  exact encode_commandOf ho

/-- Settles O1: the columns are the spec's by evaluation; rows do not overlap since their opcodes differ. -/
theorem opcodeMapMatchesTheTable : Obligations.OpcodeMapMatchesTheTable :=
  ⟨rfl, fun _ _ => beq_iff_eq, fun _ _ _ => encodesRow_unique, fun _ _ => decode_eq_command_iff⟩

/-- Settles O5: an illegal word is of no row's opcode, or of a row's opcode without encoding the row. -/
theorem illegalWordsOnlyRaiseIll : Obligations.IllegalWordsOnlyRaiseIll := by
  refine ⟨fun w => decode_eq_unassignedOpcode_iff.trans (forall_ne_opcOf_iff (opcField w)),
    fun w => decode_eq_mustBeZeroBitSet_iff.trans (exists_opcode_not_encodesRow_iff w),
    fun _ _ => raisesOnlyIll_of_decode, fun _ _ => issuesCommand_of_decode, ?_, ?_, ?_,
    raisesOnlyIll_of_decode (why := .unassignedOpcode) (by decide)⟩
  · intro w b hw
    obtain ⟨-, hi⟩ := decode_eq_command_iff.mp hw
    exact (Instr.pckByte.inj hi).symm
  · intro w b hw
    obtain ⟨-, hi⟩ := decode_eq_command_iff.mp hw
    exact (Instr.crcByte.inj hi).symm
  · intro w h hw
    obtain ⟨-, hi⟩ := decode_eq_command_iff.mp hw
    exact (Instr.hdrEmit.inj hi).symm

/-- Settles O7: the placed word is the queue's head, and decodes to its command. -/
theorem fetchedWordRunsNext : Obligations.FetchedWordRunsNext := by
  intro s i
  have hword : BitVec.ofNat 32 ((encode i).toNat % 2 ^ 32) = encode i := by
    rw [Nat.mod_eq_of_lt (encode i).isLt, BitVec.ofNat_toNat, BitVec.setWidth_eq]
  rw [State.withFetchWord, hword, step_of_pending_cons (queueCommand_pending (encode i) s)]
  exact serve_commandWrite_encode (s := { s with resetIn := false }) rfl i

/-- Settles O54: a line is refused when its operand is above its format's largest, and else it is the line of a command,
whose word decodes to it. -/
theorem assemblerRefusesWideOperands : Obligations.AssemblerRefusesWideOperands := by
  refine ⟨fun p n h => ⟨assembleLine_mnemonic_of_lt p h, assembleLine_mnemonic_of_lt p h⟩,
    fun p n h => assembleLine_mnemonic_of_lt p h, assembleLine_commandLine, ?_⟩
  intro p o n e h
  obtain ⟨i, ho, hn, rfl⟩ := eq_commandLine_of_assembleLine h
  exact ⟨i, ho, hn, commandAt_commandWrite (decode_encode i)⟩

/-- Settles O55: the line is PCK.INIT, a PCK.BYTE for each byte, and HDR.EMIT, which finds the bytes' running value in
`ACC`. -/
theorem frameHdrLineEmitsThePageHeader : Obligations.FrameHdrLineEmitsThePageHeader := by
  intro s half index bytes hs hindex hroom
  have hexpand : [Line.frameHdr half.toNat (bytes.map BitVec.toNat)].flatMap expand =
      (.pckInit :: (bytes.map .pckByte ++ [.hdrEmit half])).map commandLine := by
    rw [List.flatMap_singleton, ← List.cons_append, List.map_append, ← expandPckSeq_eq]
    rfl
  obtain ⟨es, hes, hrun⟩ := run_of_expand_eq_commandLines hs hexpand
  refine ⟨es, hes, hrun.trans ?_⟩
  calc execAll (.pckInit :: (bytes.map .pckByte ++ [.hdrEmit half])) s
      = execAll (bytes.map .pckByte ++ [.hdrEmit half]) { s with acc := pckSeed } := rfl
    _ = exec (.hdrEmit half) { s with acc := pckRun pckSeed bytes } := by
      rw [execAll_pckBytes, execAll_singleton]
    _ = _ := exec_hdrEmit_of_fits hindex hroom

/-- Settles O58: the lines are CRC.INIT, a CRC.BYTE for each byte, and CRC.EMIT. -/
theorem crcSeqLineEmitsTheCommandChecksum : Obligations.CrcSeqLineEmitsTheCommandChecksum := by
  intro s bytes hs hroom
  have hexpand : [Line.crcSeq (bytes.map BitVec.toNat), .basic (.mnemonic .crcEmit 0)].flatMap expand =
      (.crcInit :: (bytes.map .crcByte ++ [.crcEmit])).map commandLine := by
    rw [List.flatMap_cons, List.flatMap_singleton, ← List.cons_append, List.map_append, ← expandCrcSeq_eq]
    rfl
  obtain ⟨es, hes, hrun⟩ := run_of_expand_eq_commandLines hs hexpand
  refine ⟨es, hes, hrun.trans ?_⟩
  calc execAll (.crcInit :: (bytes.map .crcByte ++ [.crcEmit])) s
      = execAll (bytes.map .crcByte ++ [.crcEmit]) { s with crc := crcInitial } := rfl
    _ = exec .crcEmit { s with crc := commandChecksum bytes } := by
      rw [execAll_crcBytes, execAll_singleton]
      rfl
    _ = _ := exec_crcEmit_of_fits hroom

/-- Settles O4: each word of the table is the word of its command. -/
theorem spelledOutWordsDecode : Obligations.SpelledOutWordsDecode :=
  ⟨decode_encode .pckInit, decode_encode (.pckByte 0xAB), decode_encode .crcInit, decode_encode (.crcByte 0x17),
    decode_encode .crcEmit, decode_encode .wakeEmit, decode_encode (.hdrEmit 0x1234),
    decode_encode (.hdrEmit 0xFFFF), decode_encode .outClear, decode_encode .blkReset⟩

end Sys2Proof.Machine
end

section
/-! The page checksum (40_page_checksum.md): `pck_step` in exact arithmetic, runs of zero bytes, the frame of every
command, and what an event of the host and a run of them do to `ACC`. -/

namespace Sys2Proof.Machine

variable {s t : State}

/-! ### `pck_step` in exact arithmetic (R100) -/

@[simp] theorem highByte_toNat (v : Half) : (highByte v).toNat = v.toNat / 0x100 := by
  have hv := v.isLt
  rw [highByte, BitVec.extractLsb'_toNat, Nat.shiftRight_eq_div_pow]
  omega

@[simp] theorem lowByte_toNat (v : Half) : (lowByte v).toNat = v.toNat % 0x100 := by
  rw [lowByte, BitVec.extractLsb'_toNat, Nat.shiftRight_zero]

/-- `t >> 8` is the high byte moved into the low. -/
theorem highByte_setWidth (v : Half) : (highByte v).setWidth 16 = v >>> 8 := by
  have hv := v.isLt
  apply BitVec.eq_of_toNat_eq
  rw [BitVec.toNat_setWidth, highByte_toNat, BitVec.toNat_ushiftRight, Nat.shiftRight_eq_div_pow]
  omega

/-- The sum of R100 needs 17 bits and no more. -/
theorem pckSum_le (acc : Half) (b : Byte) : acc.toNat + b.toNat * 211 ≤ 0x1D22C := by
  have ha := acc.isLt
  have hb := b.isLt
  omega

/-- `t` of R100: the low 16 bits of the sum. -/
def pckSum (acc : Half) (b : Byte) : Half := BitVec.ofNat 16 (acc.toNat + b.toNat * 211)

theorem pckSum_toNat (acc : Half) (b : Byte) : (pckSum acc b).toNat = (acc.toNat + b.toNat * 211) % 0x10000 :=
  BitVec.toNat_ofNat _ _

/-- The mask is applied to the sum before the XOR (R100). -/
theorem pckStep_eq (acc : Half) (b : Byte) : pckStep acc b = pckSum acc b ^^^ pckSum acc b >>> 8 := by
  have hsum : (acc.setWidth 17 + b.setWidth 17 * BitVec.ofNat 17 pckMultiplier).extractLsb' 0 16 = pckSum acc b := by
    have hle := pckSum_le acc b
    have ha := acc.isLt
    have hb := b.isLt
    apply BitVec.eq_of_toNat_eq
    simp only [BitVec.extractLsb'_toNat, BitVec.toNat_add, BitVec.toNat_mul, BitVec.toNat_setWidth, BitVec.toNat_ofNat,
      pckMultiplier, pckSum_toNat, Nat.shiftRight_zero]
    omega
  rw [pckStep, hsum, highByte_setWidth]

/-- `pck_step` on numbers (R100). -/
def pckStepNat (acc : Nat) (b : Byte) : Nat :=
  (acc + b.toNat * 211) % 0x10000 ^^^ (acc + b.toNat * 211) % 0x10000 / 0x100

theorem pckStep_toNat (acc : Half) (b : Byte) : (pckStep acc b).toNat = pckStepNat acc.toNat b := by
  rw [pckStep_eq, BitVec.toNat_xor, BitVec.toNat_ushiftRight, pckSum_toNat, Nat.shiftRight_eq_div_pow]
  rfl

theorem pckRun_toNat (acc : Half) (bytes : List Byte) :
    (pckRun acc bytes).toNat = bytes.foldl pckStepNat acc.toNat :=
  (List.foldl_hom BitVec.toNat fun a b => (pckStep_toNat a b).symm).symm

theorem pckRun_append (acc : Half) (bytes bytes' : List Byte) :
    pckRun acc (bytes ++ bytes') = pckRun (pckRun acc bytes) bytes' :=
  List.foldl_append

/-! ### Zero bytes (R103) -/

/-- A 16-bit value is its two bytes. -/
theorem half_ext {v v' : Half} (hhigh : highByte v = highByte v') (hlow : lowByte v = lowByte v') : v = v' := by
  have hhigh' := congrArg BitVec.toNat hhigh
  have hlow' := congrArg BitVec.toNat hlow
  rw [highByte_toNat, highByte_toNat] at hhigh'
  rw [lowByte_toNat, lowByte_toNat] at hlow'
  apply BitVec.eq_of_toNat_eq
  omega

theorem pckStep_zero (acc : Half) : pckStep acc 0 = acc ^^^ acc >>> 8 := by
  have hsum : pckSum acc 0 = acc := by simp [pckSum]
  rw [pckStep_eq, hsum]

theorem highByte_pckStep_zero (acc : Half) : highByte (pckStep acc 0) = highByte acc := by
  rw [pckStep_zero]
  ext k hk
  simp [highByte, BitVec.getLsbD_of_ge acc (8 + (8 + k)) (by omega)]

theorem lowByte_pckStep_zero (acc : Half) : lowByte (pckStep acc 0) = lowByte acc ^^^ highByte acc := by
  rw [pckStep_zero]
  ext k hk
  simp [lowByte, highByte]

/-- A zero byte XORs `ACC[15:8]` into `ACC[7:0]`, so it does nothing exactly when `ACC[15:8]` is 0. -/
theorem pckStep_zero_eq_self_iff (acc : Half) : pckStep acc 0 = acc ↔ highByte acc = 0 := by
  constructor
  · intro h
    have hlow : lowByte acc ^^^ highByte acc = lowByte acc := by rw [← lowByte_pckStep_zero, h]
    simpa using hlow
  · intro h
    exact half_ext (highByte_pckStep_zero acc) (by rw [lowByte_pckStep_zero, h]; simp)

/-- Two zero bytes in a row restore `ACC`. -/
theorem pckStep_zero_zero (acc : Half) : pckStep (pckStep acc 0) 0 = acc := by
  apply half_ext
  · rw [highByte_pckStep_zero, highByte_pckStep_zero]
  · rw [lowByte_pckStep_zero, lowByte_pckStep_zero, highByte_pckStep_zero, BitVec.xor_assoc, BitVec.xor_self]
    simp

theorem pckRun_zeros_of_highByte_eq_zero {acc : Half} (h : highByte acc = 0) (n : Nat) :
    pckRun acc (List.replicate n 0) = acc := by
  induction n with
  | zero => rfl
  | succ n ih =>
    calc pckRun acc (List.replicate (n + 1) 0)
        = pckRun (pckStep acc 0) (List.replicate n 0) := rfl
      _ = acc := by rw [(pckStep_zero_eq_self_iff acc).mpr h, ih]

theorem pckRun_even_zeros (acc : Half) (n : Nat) : pckRun acc (List.replicate (2 * n) 0) = acc := by
  induction n with
  | zero => rfl
  | succ n ih =>
    calc pckRun acc (List.replicate (2 * (n + 1)) 0)
        = pckRun (pckStep (pckStep acc 0) 0) (List.replicate (2 * n) 0) := rfl
      _ = acc := by rw [pckStep_zero_zero, ih]

/-! ### The frame of every command -/

theorem readValue_of_ne_pckAcc {r : Reg} (h : r ≠ .pckAcc) (acc : Half) (s : State) :
    readValue r { s with acc := acc } = readValue r s := by
  cases r with
  | pckAcc => exact absurd rfl h
  | _ => rfl

theorem readValue_of_ne_crcVal {r : Reg} (h : r ≠ .crcVal) (crc : Half) (s : State) :
    readValue r { s with crc := crc } = readValue r s := by
  cases r with
  | crcVal => exact absurd rfl h
  | _ => rfl

/-- `OUT` shows in `OUT_DATA` and `OUT_LEVEL` only. -/
theorem readValue_of_ne_out {r : Reg} (hdata : r ≠ .outData) (hlevel : r ≠ .outLevel) (out : List Byte) (s : State) :
    readValue r { s with out := out } = readValue r s := by
  cases r with
  | outData => exact absurd rfl hdata
  | outLevel => exact absurd rfl hlevel
  | _ => rfl

theorem readValue_raiseError {r : Reg} (h : r ≠ .status) (c : ErrCode) (s : State) :
    readValue r (raiseError c s) = readValue r s := by
  cases r with
  | status => exact absurd rfl h
  | _ => rfl

/-- A command raises one error of its own and does nothing else, or raises none and keeps `STATUS`, which only
BLK.RESET clears. -/
theorem exec_errors {i : Instr} (h : exec i s = .next t) :
    (∃ c ∈ mayRaise i, t = raiseError c s) ∨ (t.errors = s.errors ∧ (i ≠ .blkReset → t.status = s.status)) := by
  obtain ⟨_, -, e⟩ | ⟨_, -, e⟩ | ⟨-, -, e⟩ | ⟨rfl, -, e⟩ | ⟨-, -, e⟩ | ⟨rfl, -, e⟩ | ⟨_, rfl, -, e⟩ |
    ⟨_, _, -, -, -, e⟩ | ⟨_, _, rfl, -, -, e⟩ | ⟨-, e⟩ | ⟨rfl, e⟩ := exec_cases i s <;>
    obtain rfl := Host.Outcome.next.inj (e.symm.trans h)
  · exact .inr ⟨rfl, fun _ => rfl⟩
  · exact .inr ⟨rfl, fun _ => rfl⟩
  · exact .inr ⟨rfl, fun _ => rfl⟩
  · exact .inl ⟨.ovf, by simp [mayRaise], rfl⟩
  · exact .inr ⟨rfl, fun _ => rfl⟩
  · exact .inl ⟨.ovf, by simp [mayRaise], rfl⟩
  · exact .inl ⟨.idx, by simp [mayRaise], rfl⟩
  · exact .inr ⟨rfl, fun _ => rfl⟩
  · exact .inl ⟨.ovf, by simp [mayRaise], rfl⟩
  · exact .inr ⟨rfl, fun _ => rfl⟩
  · exact .inr ⟨rfl, absurd rfl⟩

theorem mem_registerMap (r : Reg) : r ∈ registerMap := by cases r <;> decide

/-- A register that is no destination of a command reads as before. -/
theorem readValue_exec {i : Instr} (h : exec i s = .next t) {r : Reg} (hr : r ∉ mayChange i) :
    readValue r t = readValue r s := by
  have hne {q : Reg} (hq : q ∈ mayChange i) : r ≠ q := (ne_of_mem_of_not_mem hq hr).symm
  obtain ⟨_, hi, e⟩ | ⟨_, hi, e⟩ | ⟨rfl, -, e⟩ | ⟨rfl, -, e⟩ | ⟨rfl, -, e⟩ | ⟨rfl, -, e⟩ | ⟨_, rfl, -, e⟩ |
    ⟨_, _, rfl, -, -, e⟩ | ⟨_, _, rfl, -, -, e⟩ | ⟨rfl, e⟩ | ⟨rfl, e⟩ := exec_cases i s <;>
    obtain rfl := Host.Outcome.next.inj (e.symm.trans h)
  · refine readValue_of_ne_pckAcc (hne ?_) _ s
    obtain ⟨rfl, -⟩ | ⟨_, rfl, -⟩ := hi <;> simp [mayChange]
  · refine readValue_of_ne_crcVal (hne ?_) _ s
    obtain ⟨rfl, -⟩ | ⟨_, rfl, -⟩ := hi <;> simp [mayChange]
  · exact readValue_of_ne_out (hne (by simp [mayChange])) (hne (by simp [mayChange])) _ s
  · exact readValue_raiseError (hne (by simp [mayChange])) .ovf s
  · exact (readValue_of_ne_crcVal (hne (by simp [mayChange])) _ { s with out := s.out ++ wakeCommand s }).trans
      (readValue_of_ne_out (hne (by simp [mayChange])) (hne (by simp [mayChange])) _ s)
  · exact readValue_raiseError (hne (by simp [mayChange])) .ovf s
  · exact readValue_raiseError (hne (by simp [mayChange])) .idx s
  · exact readValue_of_ne_out (hne (by simp [mayChange])) (hne (by simp [mayChange])) _ s
  · exact readValue_raiseError (hne (by simp [mayChange])) .ovf s
  · exact readValue_of_ne_out (hne (by simp [mayChange])) (hne (by simp [mayChange])) _ s
  · exact absurd (mem_registerMap r) hr

/-- A `STATUS` bit that is no error of a command is kept, but by BLK.RESET. -/
theorem hasStatus_exec {i : Instr} (h : exec i s = .next t) (hreset : i ≠ .blkReset) {c : ErrCode}
    (hc : c ∉ mayRaise i) : hasStatus t.status c = hasStatus s.status c := by
  obtain ⟨d, hd, rfl⟩ | ⟨-, hstatus⟩ := exec_errors h
  · rw [raiseError_status, hasStatus_statusAfterError, beq_false_of_ne (ne_of_mem_of_not_mem hd hc).symm,
      Bool.false_or]
  · rw [hstatus hreset]

/-- A command that does not empty `OUT` only appends to it. -/
theorem exec_out_append {i : Instr} (h : exec i s = .next t) (hclear : i ≠ .outClear) (hreset : i ≠ .blkReset) :
    ∃ bytes, t.out = s.out ++ bytes :=
  ⟨_, exec_out h hclear hreset (commandAt_commandWrite (decode_encode i))⟩

/-- The four commands of the checksum units that emit nothing keep `OUT`. -/
theorem exec_out_of_not_mem {i : Instr} (h : exec i s = .next t) (hout : Reg.outData ∉ mayChange i) :
    t.out = s.out := by
  cases i with
  | pckInit | pckByte | crcInit | crcByte =>
    obtain rfl := Host.Outcome.next.inj h
    rfl
  | crcEmit | wakeEmit | hdrEmit | outClear | blkReset => simp [mayChange, registerMap] at hout

/-! ### What each event does to `ACC` (R104) -/

theorem restartsPck_eq_true_iff {p : Params} {e : HostEvent} : restartsPck p e = true ↔
    e = .setReset true ∨ commandAt p e = some .pckInit ∨ commandAt p e = some .blkReset := by
  simp [restartsPck, or_assoc]

theorem fedToPck_pckByte {p : Params} {e : HostEvent} {b : Byte} (h : commandAt p e = some (.pckByte b)) :
    fedToPck p e = [b] := by
  simp only [fedToPck, h]

/-- Only PCK.BYTE feeds the page checksum. -/
theorem fedToPck_eq_nil {p : Params} {e : HostEvent} (h : ∀ b, commandAt p e ≠ some (.pckByte b)) :
    fedToPck p e = [] := by
  unfold fedToPck
  split
  · exact absurd ‹_› (h _)
  · rfl

@[simp] theorem popOut_acc (s : State) : (popOut s).acc = s.acc := by
  obtain ⟨-, h⟩ | ⟨_, _, -, h⟩ := popOut_cases s <;> rw [h]

@[simp] theorem readReg_acc (r : Reg) (s : State) : (readReg r s).acc = s.acc := by
  cases r <;> simp [readReg, readEffect]

@[simp] theorem writeReg_acc (r : Reg) (v : Word) (s : State) : (writeReg r v s).acc = s.acc := by
  cases r <;> rfl

/-- `ACC` is a destination of PCK.INIT, PCK.BYTE and BLK.RESET only. -/
theorem pckAcc_mem_mayChange {i : Instr} (h : Reg.pckAcc ∈ mayChange i) :
    i = .pckInit ∨ (∃ b, i = .pckByte b) ∨ i = .blkReset := by
  cases i <;> simp [mayChange] at h ⊢

/-- The frame of the commands, read off `PCK_ACC`, which shows all of `ACC`. -/
theorem exec_acc_of_not_mem {i : Instr} (h : exec i s = .next t) (hacc : Reg.pckAcc ∉ mayChange i) :
    t.acc = s.acc := by
  have hread : t.acc.setWidth 32 = s.acc.setWidth 32 := readValue_exec h hacc
  rw [← wordHalf_setWidth t.acc, hread, wordHalf_setWidth]

theorem serve_acc_of_no_command {e : HostEvent} (h : serve e s = .next t) (he : commandAt s.params e = none)
    (hreset : e ≠ .setReset true) : t.acc = s.acc := by
  obtain ⟨rfl, -⟩ | ⟨-, rfl⟩ | ⟨-, r, -, rfl⟩ | ⟨-, r, v, -, -, rfl⟩ | ⟨-, w, i, rfl, hw, -⟩ | ⟨-, _, _, -, -, rfl⟩ |
    ⟨-, _, _, -, -, -, rfl⟩ | ⟨-, _, _, _, -, -, -, rfl⟩ := serve_cases h
  · exact absurd rfl hreset
  · rfl
  · exact readReg_acc r s
  · exact writeReg_acc r v s
  · cases (commandAt_commandWrite hw).symm.trans he
  · rfl
  · rfl
  · rfl

/-- An event that does not start the page checksum anew moves `ACC` through the bytes it feeds: one for PCK.BYTE, none
for every other event. -/
theorem serve_acc {e : HostEvent} (h : serve e s = .next t) (he : restartsPck s.params e = false) :
    t.acc = pckRun s.acc (fedToPck s.params e) := by
  have hkeeps := mt restartsPck_eq_true_iff.mpr (ne_true_of_eq_false he)
  push Not at hkeeps
  obtain ⟨hreset, hinit, hblk⟩ := hkeeps
  by_cases hbyte : ∃ b, commandAt s.params e = some (.pckByte b)
  · obtain ⟨b, hb⟩ := hbyte
    obtain rfl := Host.Outcome.next.inj (exec_of_serve h hb)
    rw [fedToPck_pckByte hb]
    rfl
  · rw [fedToPck_eq_nil (not_exists.mp hbyte)]
    cases hi : commandAt s.params e with
    | none => exact serve_acc_of_no_command h hi hreset
    | some i =>
      refine exec_acc_of_not_mem (exec_of_serve h hi) fun hmem => ?_
      obtain rfl | ⟨b, rfl⟩ | rfl := pckAcc_mem_mayChange hmem
      exacts [hinit hi, hbyte ⟨b, hi⟩, hblk hi]

/-- A run of window accesses that do not start the page checksum anew completes, and moves `ACC` through the bytes
fed, in order. -/
theorem serveAll_acc (hs : s.resetIn = false) {es : List HostEvent}
    (hes : ∀ e ∈ es, windowAccess s.params e = true ∧ restartsPck s.params e = false) :
    ∃ t, serveAll es s = .next t ∧ t.acc = pckRun s.acc (es.flatMap (fedToPck s.params)) := by
  induction es generalizing s with
  | nil => exact ⟨s, rfl, rfl⟩
  | cons e es ih =>
    obtain ⟨hwindow, hrestart⟩ := hes e List.mem_cons_self
    obtain ⟨u, hu, hureset⟩ := serve_next_of_windowAccess hs hwindow
    obtain ⟨hparams, -, -⟩ := serve_keeps hu
    obtain ⟨t, ht, hacc⟩ := ih hureset fun e' he' => hparams ▸ hes e' (List.mem_cons_of_mem e he')
    refine ⟨t, (serveAll_cons_of_next hu es).trans ht, ?_⟩
    rw [hacc, serve_acc hu hrestart, hparams, List.flatMap_cons, pckRun_append]

/-! ### The obligations -/

/-- Settles O26: after PCK.INIT `ACC` is the seed and the run moves it through the bytes fed (`serveAll_acc`); an event
that does not start the checksum anew and is no PCK.BYTE feeds nothing, so by `serve_acc` it keeps `ACC`. -/
theorem pageChecksumOfTheBytesFed : Obligations.PageChecksumOfTheBytesFed := by
  constructor
  · intro s es hs hes
    have hinit : serve (commandWrite s.params 0x01000000) s = .next { s with acc := pckSeed } :=
      serve_commandWrite_encode hs .pckInit
    obtain ⟨t, ht, hacc⟩ := serveAll_acc (s := { s with acc := pckSeed }) hs hes
    exact ⟨t, (serveAll_cons_of_next hinit es).trans ht, congrArg lowByte hacc⟩
  · intro e s t h hacc
    cases he : restartsPck s.params e with
    | true =>
      obtain h | h | h := restartsPck_eq_true_iff.mp he
      exacts [.inr (.inr (.inr h)), .inl h, .inr (.inr (.inl h))]
    | false =>
      refine .inr (.inl (by_contra fun hbyte => hacc ?_))
      rw [serve_acc h he, fedToPck_eq_nil (not_exists.mp hbyte)]
      rfl

/-- Settles O22: the exact value of the step, and the bounds of its sum and of a 16-bit result. -/
theorem pckStepArithmetic : Obligations.PckStepArithmetic := by
  intro acc b
  have hstep := pckStep_toNat acc b
  exact ⟨hstep, pckSum_le acc b, hstep.symm.trans_lt (pckStep acc b).isLt⟩

/-- Settles O23: the fold of the exact step, of which `pageChecksum` takes the low byte. -/
theorem pageChecksumArithmetic : Obligations.PageChecksumArithmetic := by
  refine ⟨fun bytes => ?_, rfl⟩
  rw [pageChecksum, lowByte_toNat, pckRun_toNat]
  rfl

/-- Settles O25: the encoded word and its must-be-zero bits, the command's meaning, and the zero-byte lemmas. -/
theorem pckByteFeedsOneByte : Obligations.PckByteFeedsOneByte := by
  refine ⟨fun b => ?_, fun _ _ => rfl, fun w hop hbits => ?_, fun acc => ?_, fun n => ?_, pckRun_even_zeros,
    by decide, by decide, by decide, by decide⟩
  · rw [← encode_pckByte]
    exact issuesCommand_of_decode (decode_encode (.pckByte b))
  · exact raisesOnlyIll_of_opcode (o := .pckByte) hop fun h => hbits ((encodesRow_iff_fields w .pckByte).mp h).2
  · exact ⟨pckStep_zero acc, pckStep_zero_eq_self_iff acc, highByte_pckStep_zero acc, lowByte_pckStep_zero acc⟩
  · exact pckRun_zeros_of_highByte_eq_zero (by decide) n

/-- Settles O51: registers, `STATUS` bits, `OUT` and errors each by their own frame lemma, and the rest by
`exec_next`. -/
theorem commandFrame : Obligations.CommandFrame := by
  intro i s t h
  obtain ⟨u, hu, hkept⟩ := exec_next i s
  obtain rfl := Host.Outcome.next.inj (hu.symm.trans h)
  refine ⟨fun r hr => readValue_exec h hr, fun c hreset hc => hasStatus_exec h hreset hc, exec_out_append h,
    exec_out_of_not_mem h, ?_, hkept⟩
  obtain ⟨c, hc, rfl⟩ | ⟨herrors, -⟩ := exec_errors h
  · exact .inr ⟨c, hc, rfl⟩
  · exact .inl herrors

/-- Settles O24: the word of the command, its meaning, and the must-be-zero bits of its format. -/
theorem pckInitStartsThePageChecksum : Obligations.PckInitStartsThePageChecksum := by
  refine ⟨issuesCommand_of_decode (decode_encode .pckInit), fun _ => rfl, fun s hacc => ?_, fun w hop hbits => ?_⟩
  · have hkeep : { s with acc := pckSeed } = s := by rw [pckSeed, ← hacc]
    exact congrArg Host.Outcome.next hkeep
  · exact raisesOnlyIll_of_opcode (o := .pckInit) hop fun h => hbits ((encodesRow_iff_fields w .pckInit).mp h).2

end Sys2Proof.Machine
end

section
/-! The command checksum (41_command_checksum.md): `crc_step` in exact arithmetic, CRC.EMIT, and what an event of
the host and a run of them do to `CRC`. -/

namespace Sys2Proof.Machine

variable {s t : State}

/-! ### `crc_step` in exact arithmetic (R120) -/

/-- An iteration of R120 on numbers. -/
def crcShiftNat (c : Nat) : Nat := if c % 2 = 1 then c / 2 ^^^ 0xA001 else c / 2

/-- `crc_step` on numbers (R120). -/
def crcStepNat (crc : Nat) (b : Byte) : Nat := Nat.repeat crcShiftNat 8 (crc ^^^ b.toNat)

/-- The bit shifted out is 1 exactly when the register is odd, and the shift halves the register. -/
theorem crcShift_toNat (c : Half) : (crcShift c).toNat = crcShiftNat c.toNat := by
  have hodd : c.getLsbD 0 = true ↔ c.toNat % 2 = 1 := by simp [BitVec.getLsbD]
  have hhalf : (c >>> 1).toNat = c.toNat / 2 := by rw [BitVec.toNat_ushiftRight, Nat.shiftRight_one]
  unfold crcShift crcShiftNat
  by_cases h : c.toNat % 2 = 1
  · rw [if_pos (hodd.mpr h), if_pos h, BitVec.toNat_xor, hhalf]
    rfl
  · rw [if_neg (mt hodd.mp h), if_neg h, hhalf]

/-- The iterations may be counted from the last one, as `Nat.repeat` does. -/
theorem crcShifts_succ (n : Nat) (c : Half) : crcShifts (n + 1) c = crcShift (crcShifts n c) := by
  induction n generalizing c with
  | zero => rfl
  | succ n ih => exact ih (crcShift c)

theorem crcShifts_toNat (n : Nat) (c : Half) : (crcShifts n c).toNat = Nat.repeat crcShiftNat n c.toNat := by
  induction n with
  | zero => rfl
  | succ n ih => rw [crcShifts_succ, crcShift_toNat, ih, Nat.repeat]

/-- A byte extended to 16 bits keeps its value, so the XOR reaches the low 8 bits only. -/
theorem crcStep_toNat (crc : Half) (b : Byte) : (crcStep crc b).toNat = crcStepNat crc.toNat b := by
  have hb : (b.setWidth 16).toNat = b.toNat := BitVec.toNat_setWidth_of_le (by decide)
  rw [crcStep, crcShifts_toNat, BitVec.toNat_xor, hb, crcStepNat]

theorem crcRun_toNat (crc : Half) (bytes : List Byte) :
    (crcRun crc bytes).toNat = bytes.foldl crcStepNat crc.toNat :=
  (List.foldl_hom BitVec.toNat fun c b => (crcStep_toNat c b).symm).symm

theorem crcRun_append (crc : Half) (bytes bytes' : List Byte) :
    crcRun crc (bytes ++ bytes') = crcRun (crcRun crc bytes) bytes' :=
  List.foldl_append

/-! ### CRC.EMIT (R124) -/

theorem littleEndian_crcInitial : littleEndian crcInitial = [0xFF, 0xFF] := by decide

theorem exec_crcEmit_of_not_fits (h : s.params.outDepth < s.out.length + 2) :
    exec .crcEmit s = .next (raiseError .ovf s) :=
  congrArg _ (emitThen_of_not_fits (bytes := littleEndian s.crc) h)

/-! ### What each event does to `CRC` (R125) -/

theorem restartsCrc_eq_true_iff {p : Params} {e : HostEvent} : restartsCrc p e = true ↔
    e = .setReset true ∨ commandAt p e = some .crcInit ∨ commandAt p e = some .wakeEmit ∨
      commandAt p e = some .blkReset := by
  simp [restartsCrc, or_assoc]

theorem fedToCrc_crcByte {p : Params} {e : HostEvent} {b : Byte} (h : commandAt p e = some (.crcByte b)) :
    fedToCrc p e = [b] := by
  simp only [fedToCrc, h]

/-- Only CRC.BYTE feeds the command checksum. -/
theorem fedToCrc_eq_nil {p : Params} {e : HostEvent} (h : ∀ b, commandAt p e ≠ some (.crcByte b)) :
    fedToCrc p e = [] := by
  unfold fedToCrc
  split
  · exact absurd ‹_› (h _)
  · rfl

/-- `CRC_VAL` shows all of `CRC` (R29), so a frame of the registers is a frame of `CRC`. -/
theorem crc_eq_of_readValue (h : readValue .crcVal t = readValue .crcVal s) : t.crc = s.crc := by
  have hread : t.crc.setWidth 32 = s.crc.setWidth 32 := h
  rw [← wordHalf_setWidth t.crc, hread, wordHalf_setWidth]

theorem readReg_crc (r : Reg) (s : State) : (readReg r s).crc = s.crc :=
  crc_eq_of_readValue (readValue_readReg (.inr ⟨by decide, by decide⟩) s)

theorem writeReg_crc (r : Reg) (v : Word) (s : State) : (writeReg r v s).crc = s.crc := by
  cases r <;> rfl

/-- `CRC` is a destination of CRC.INIT, CRC.BYTE, WAKE.EMIT and BLK.RESET only. -/
theorem crcVal_mem_mayChange {i : Instr} (h : Reg.crcVal ∈ mayChange i) :
    i = .crcInit ∨ (∃ b, i = .crcByte b) ∨ i = .wakeEmit ∨ i = .blkReset := by
  cases i <;> simp [mayChange] at h ⊢

theorem serve_crc_of_no_command {e : HostEvent} (h : serve e s = .next t) (he : commandAt s.params e = none)
    (hreset : e ≠ .setReset true) : t.crc = s.crc := by
  obtain ⟨rfl, -⟩ | ⟨-, rfl⟩ | ⟨-, r, -, rfl⟩ | ⟨-, r, v, -, -, rfl⟩ | ⟨-, w, i, rfl, hw, -⟩ | ⟨-, _, _, -, -, rfl⟩ |
    ⟨-, _, _, -, -, -, rfl⟩ | ⟨-, _, _, _, -, -, -, rfl⟩ := serve_cases h
  · exact absurd rfl hreset
  · rfl
  · exact readReg_crc r s
  · exact writeReg_crc r v s
  · cases (commandAt_commandWrite hw).symm.trans he
  · rfl
  · rfl
  · rfl

/-- An event that neither sets `CRC` anew nor is a CRC.BYTE keeps `CRC`. -/
theorem serve_crc_of_no_crcByte {e : HostEvent} (h : serve e s = .next t) (he : restartsCrc s.params e = false)
    (hbyte : ∀ b, commandAt s.params e ≠ some (.crcByte b)) : t.crc = s.crc := by
  have hkeeps := mt restartsCrc_eq_true_iff.mpr (ne_true_of_eq_false he)
  push Not at hkeeps
  obtain ⟨hreset, hinit, hwake, hblk⟩ := hkeeps
  cases hi : commandAt s.params e with
  | none => exact serve_crc_of_no_command h hi hreset
  | some i =>
    refine crc_eq_of_readValue (readValue_exec (exec_of_serve h hi) fun hmem => ?_)
    obtain rfl | ⟨b, rfl⟩ | rfl | rfl := crcVal_mem_mayChange hmem
    exacts [hinit hi, hbyte b hi, hwake hi, hblk hi]

/-- An event that does not set `CRC` anew moves it through the bytes the event feeds: one for CRC.BYTE, none for every
other event. -/
theorem serve_crc {e : HostEvent} (h : serve e s = .next t) (he : restartsCrc s.params e = false) :
    t.crc = crcRun s.crc (fedToCrc s.params e) := by
  by_cases hbyte : ∃ b, commandAt s.params e = some (.crcByte b)
  · obtain ⟨b, hb⟩ := hbyte
    obtain rfl := Host.Outcome.next.inj (exec_of_serve h hb)
    rw [fedToCrc_crcByte hb]
    rfl
  · rw [fedToCrc_eq_nil (not_exists.mp hbyte)]
    exact serve_crc_of_no_crcByte h he (not_exists.mp hbyte)

/-! ### Runs -/

/-- A run of accesses in the window completes while reset is released. -/
theorem serveAll_next_of_windowAccess (hs : s.resetIn = false) {es : List HostEvent}
    (hes : ∀ e ∈ es, windowAccess s.params e = true) : ∃ t, serveAll es s = .next t := by
  induction es generalizing s with
  | nil => exact ⟨s, rfl⟩
  | cons e es ih =>
    obtain ⟨u, hu, hureset⟩ := serve_next_of_windowAccess hs (hes e List.mem_cons_self)
    obtain ⟨hparams, -, -⟩ := serve_keeps hu
    obtain ⟨t, ht⟩ := ih hureset fun e' he' => hparams ▸ hes e' (List.mem_cons_of_mem e he')
    exact ⟨t, (serveAll_cons_of_next hu es).trans ht⟩

/-- A run that completes performs its first event and then completes the others. -/
theorem exists_serve_of_serveAll_cons {e : HostEvent} {es : List HostEvent} (h : serveAll (e :: es) s = .next t) :
    ∃ u, serve e s = .next u ∧ serveAll es u = .next t := by
  cases he : serve e s with
  | next u => exact ⟨u, rfl, (serveAll_cons_of_next he es).symm.trans h⟩
  | fault f => cases f
  | refused r => simp [serveAll, he] at h

/-- A run of events that do not set `CRC` anew moves it through the bytes fed, in order. -/
theorem serveAll_crc {es : List HostEvent} (h : serveAll es s = .next t)
    (hes : ∀ e ∈ es, restartsCrc s.params e = false) : t.crc = crcRun s.crc (es.flatMap (fedToCrc s.params)) := by
  induction es generalizing s with
  | nil =>
    obtain rfl := Host.Outcome.next.inj h
    rfl
  | cons e es ih =>
    obtain ⟨u, hu, hrest⟩ := exists_serve_of_serveAll_cons h
    obtain ⟨hparams, -, -⟩ := serve_keeps hu
    rw [ih hrest fun e' he' => hparams ▸ hes e' (List.mem_cons_of_mem e he'),
      serve_crc hu (hes e List.mem_cons_self), hparams, List.flatMap_cons, crcRun_append]

/-! ### The obligations -/

/-- Settles O32: after CRC.INIT `CRC` is the initial value and the run moves it through the bytes fed (`serveAll_crc`);
an event that does not set `CRC` anew changes it only as a CRC.BYTE (`serve_crc_of_no_crcByte`). -/
theorem commandChecksumOfTheBytesFed : Obligations.CommandChecksumOfTheBytesFed := by
  refine ⟨fun s es hs hes => ?_, fun e s t h hcrc => ?_, by decide +kernel⟩
  · have hinit : serve (commandWrite s.params 0x10000000) s = .next { s with crc := crcInitial } :=
      serve_commandWrite_encode hs .crcInit
    obtain ⟨t, ht⟩ := serveAll_next_of_windowAccess (s := { s with crc := crcInitial }) hs fun e he => (hes e he).1
    exact ⟨t, (serveAll_cons_of_next hinit es).trans ht, serveAll_crc ht fun e he => (hes e he).2⟩
  · cases he : restartsCrc s.params e with
    | true =>
      obtain h | h | h | h := restartsCrc_eq_true_iff.mp he
      exacts [.inr (.inr (.inr (.inr h))), .inl h, .inr (.inr (.inl h)), .inr (.inr (.inr (.inl h)))]
    | false =>
      exact .inr (.inl (by_contra fun hbyte => hcrc (serve_crc_of_no_crcByte h he (not_exists.mp hbyte))))

/-- Settles O27: the exact value of the step, whose iterations are `crcShift_toNat`. -/
theorem crcStepArithmetic : Obligations.CrcStepArithmetic :=
  crcStep_toNat

/-- Settles O28: the fold of the exact step from the initial value. -/
theorem commandChecksumArithmetic : Obligations.CommandChecksumArithmetic :=
  ⟨crcRun_toNat crcInitial, rfl⟩

/-- Settles O30: the encoded word and its must-be-zero bits, the command's meaning, and the rule's four values. -/
theorem crcByteFeedsOneByte : Obligations.CrcByteFeedsOneByte := by
  refine ⟨fun b => ?_, fun _ _ => rfl, fun w hop hbits => ?_, by decide, by decide, by decide, by decide⟩
  · rw [← encode_crcByte]
    exact issuesCommand_of_decode (decode_encode (.crcByte b))
  · exact raisesOnlyIll_of_opcode (o := .crcByte) hop fun h => hbits ((encodesRow_iff_fields w .crcByte).mp h).2

/-- Settles O31: CRC.EMIT by its two cases; the two runs are their commands executed in order. -/
theorem crcEmitAppendsLowByteFirst : Obligations.CrcEmitAppendsLowByteFirst := by
  refine ⟨issuesCommand_of_decode (decode_encode .crcEmit), fun w hop hbits => ?_, fun s h => exec_crcEmit_of_fits h,
    fun s h => exec_crcEmit_of_not_fits h, fun s hs h => ?_, fun s hs h => ?_⟩
  · exact raisesOnlyIll_of_opcode (o := .crcEmit) hop fun h => hbits ((encodesRow_iff_fields w .crcEmit).mp h).2
  · have hfirst := exec_crcEmit_of_fits (s := s) (by omega)
    have hsecond := exec_crcEmit_of_fits (s := { s with out := s.out ++ littleEndian s.crc })
      (by simpa using h)
    calc serveAll [commandWrite s.params 0x12000000, commandWrite s.params 0x12000000] s
        = execAll [.crcEmit, .crcEmit] s := serveAll_commandWrites hs [.crcEmit, .crcEmit]
      _ = exec .crcEmit { s with out := s.out ++ littleEndian s.crc } := by
        rw [execAll, hfirst]
        exact execAll_singleton _ _
      _ = _ := by
        rw [hsecond, List.append_assoc]
        rfl
  · calc serveAll [commandWrite s.params 0x10000000, commandWrite s.params 0x12000000] s
        = execAll [.crcInit, .crcEmit] s := serveAll_commandWrites hs [.crcInit, .crcEmit]
      _ = exec .crcEmit { s with crc := crcInitial } := execAll_singleton .crcEmit { s with crc := crcInitial }
      _ = .next { s with crc := crcInitial, out := s.out ++ littleEndian crcInitial } :=
        exec_crcEmit_of_fits (s := { s with crc := crcInitial }) h
      _ = _ := by
        rw [littleEndian_crcInitial]
        rfl

/-- Settles O29: the word of the command, its meaning, and the must-be-zero bits of its format. -/
theorem crcInitStartsTheCommandChecksum : Obligations.CrcInitStartsTheCommandChecksum := by
  refine ⟨issuesCommand_of_decode (decode_encode .crcInit), fun _ => rfl, fun w hop hbits => ?_⟩
  exact raisesOnlyIll_of_opcode (o := .crcInit) hop fun h => hbits ((encodesRow_iff_fields w .crcInit).mp h).2

end Sys2Proof.Machine
end

section
/-! The wake command (42_wake_command.md): its bytes, WAKE.EMIT with and without room, and CRC.EMIT after it. -/

namespace Sys2Proof.Machine

variable {s : State}

/-! ### The bytes (R140, R142) -/

/-- The body spelled out: the function code, and the register and the value high byte first. -/
theorem wakeBody_eq (addr : Byte) (reg val : Half) :
    wakeBody addr reg val =
      [addr, 0x06, reg.extractLsb' 8 8, reg.extractLsb' 0 8, val.extractLsb' 8 8, val.extractLsb' 0 8] := rfl

/-- The checksum of the source's example, whose fields are the reset values. -/
theorem wakeChecksum_of_resetValues (haddr : s.wakeAddr = resetWakeAddr) (hreg : s.wakeReg = resetWakeReg)
    (hval : s.wakeVal = resetWakeVal) : wakeChecksum s = 0x4217 := by
  rw [wakeChecksum, haddr, hreg, hval]
  decide +kernel

theorem wakeCommand_of_resetValues (haddr : s.wakeAddr = resetWakeAddr) (hreg : s.wakeReg = resetWakeReg)
    (hval : s.wakeVal = resetWakeVal) : wakeCommand s = [0x20, 0x06, 0xFF, 0xFF, 0xDE, 0xAD, 0x17, 0x42] := by
  rw [wakeCommand, wakeChecksum_of_resetValues haddr hreg hval, haddr, hreg, hval]
  decide

/-! ### WAKE.EMIT (R141) -/

theorem exec_wakeEmit_of_fits (h : s.out.length + 8 ≤ s.params.outDepth) :
    exec .wakeEmit s = .next { s with out := s.out ++ wakeCommand s, crc := wakeChecksum s } :=
  congrArg _ (emitThen_of_fits (bytes := wakeCommand s) h)

theorem exec_wakeEmit_of_not_fits (h : s.params.outDepth < s.out.length + 8) :
    exec .wakeEmit s = .next (raiseError .ovf s) :=
  congrArg _ (emitThen_of_not_fits (bytes := wakeCommand s) h)

/-- CRC.EMIT after WAKE.EMIT finds the wake command's checksum in `CRC` and appends it a second time. -/
theorem execAll_wakeEmit_crcEmit (h : s.out.length + 10 ≤ s.params.outDepth) :
    execAll [.wakeEmit, .crcEmit] s = .next { s with
      out := s.out ++ wakeCommand s ++ littleEndian (wakeChecksum s), crc := wakeChecksum s } := by
  rw [execAll, exec_wakeEmit_of_fits (by omega)]
  exact (execAll_singleton _ _).trans (exec_crcEmit_of_fits
    (s := { s with out := s.out ++ wakeCommand s, crc := wakeChecksum s }) (by simpa using h))

/-! ### The obligations -/

/-- Settles O34: WAKE.EMIT by its two cases, the run with CRC.EMIT by its commands in order, and the example by the
reset values, for which an empty `OUT` of any admitted depth has room. -/
theorem wakeEmitPacksTheWakeCommand : Obligations.WakeEmitPacksTheWakeCommand := by
  refine ⟨issuesCommand_of_decode (decode_encode .wakeEmit), fun w hop hbits => ?_, fun s body c hbody hc => ?_, rfl,
    fun p hp => ?_⟩
  · exact raisesOnlyIll_of_opcode (o := .wakeEmit) hop fun h => hbits ((encodesRow_iff_fields w .wakeEmit).mp h).2
  · rw [← wakeBody_eq] at hbody
    subst hbody hc
    refine ⟨fun h => ?_, exec_wakeEmit_of_not_fits, fun hs h => ?_⟩
    · rw [exec_wakeEmit_of_fits h, List.append_assoc]
      rfl
    · calc serveAll [commandWrite s.params 0x20000000, commandWrite s.params 0x12000000] s
          = execAll [.wakeEmit, .crcEmit] s := serveAll_commandWrites hs [.wakeEmit, .crcEmit]
        _ = _ := execAll_wakeEmit_crcEmit h
        _ = _ := by
          rw [List.append_assoc, List.append_assoc]
          rfl
  · obtain ⟨-, hdepth, -⟩ := hp
    rw [exec_wakeEmit_of_fits (s := State.resetWith p) hdepth, wakeCommand_of_resetValues rfl rfl rfl,
      wakeChecksum_of_resetValues rfl rfl rfl]
    rfl

/-- Settles O33: the body and the byte order of its checksum, and the example, whose fields are the reset values. -/
theorem wakeCommandLayout : Obligations.WakeCommandLayout := by
  refine ⟨fun s => ⟨_, wakeBody_eq s.wakeAddr s.wakeReg s.wakeVal, rfl⟩, fun s haddr hreg hval => ?_⟩
  exact wakeCommand_of_resetValues (BitVec.eq_of_toNat_eq haddr) (BitVec.eq_of_toNat_eq hreg) hval

end Sys2Proof.Machine
end

section
/-! The frame header (43_frame_header.md): when a position has an index and which (R160, R164, R165), and what HDR.EMIT
does with and without one (R161, R162). -/

namespace Sys2Proof.Machine

variable {s : State} {total i j : Half} {offset : Byte} {crypt : Bool}

/-! ### The index of a position (R160) -/

/-- The formula of `pageIndex`, before its range is checked. -/
def indexSum (total i : Half) (offset : Byte) (crypt : Bool) : Nat :=
  (total.toNat - i.toNat - 1) + offset.toNat + (if crypt then 0x80 else 0)

theorem pageIndex_eq_some_iff {index : Byte} :
    pageIndex total i offset crypt = some index ↔
      i.toNat < total.toNat ∧ index.toNat = indexSum total i offset crypt := by
  obtain ⟨hnone, h⟩ | ⟨a, hsome, hi, ha⟩ := pageIndex_cases total i offset crypt
  · refine iff_of_false (by simp [hnone]) fun ⟨hlt, hindex⟩ => ?_
    have hbyte := index.isLt
    rw [hindex, indexSum] at hbyte
    omega
  · rw [hsome, Option.some_inj]
    exact ⟨fun e => e ▸ ⟨hi, ha⟩, fun ⟨_, hindex⟩ => BitVec.eq_of_toNat_eq (ha.trans hindex.symm)⟩

theorem pageIndex_eq_none_iff :
    pageIndex total i offset crypt = none ↔ total.toNat ≤ i.toNat ∨ 0xFF < indexSum total i offset crypt := by
  obtain ⟨hnone, h⟩ | ⟨a, hsome, hi, ha⟩ := pageIndex_cases total i offset crypt
  · exact iff_of_true hnone h
  · have hbyte := a.isLt
    refine iff_of_false (by simp [hsome]) ?_
    rw [indexSum]
    omega

theorem exists_pageIndex_iff :
    (∃ index, pageIndex total i offset crypt = some index) ↔
      i.toNat < total.toNat ∧ indexSum total i offset crypt ≤ 0xFF := by
  rw [← Option.ne_none_iff_exists', ne_eq, pageIndex_eq_none_iff, not_or, not_le, not_lt]

/-- The largest base is that of the first position of 65535 pages with the offset 0xFF. -/
theorem pageIndex_base_le (total i : Half) (offset : Byte) :
    (total.toNat - i.toNat - 1) + offset.toNat ≤ 65789 := by
  have htotal := total.isLt
  have hoffset := offset.isLt
  omega

/-! ### The indices of one attempt (R164, R165) -/

/-- With fixed configuration an index and its position have the same sum at every position. -/
theorem pageIndex_toNat_add {a : Byte} (h : pageIndex total i offset crypt = some a) :
    a.toNat + i.toNat = offset.toNat + total.toNat - 1 + (if crypt then 0x80 else 0) := by
  obtain ⟨hi, ha⟩ := pageIndex_eq_some_iff.mp h
  rw [ha, indexSum]
  omega

theorem pageIndex_add_eq_add {a b : Byte} (ha : pageIndex total i offset crypt = some a)
    (hb : pageIndex total j offset crypt = some b) : a.toNat + i.toNat = b.toNat + j.toNat :=
  (pageIndex_toNat_add ha).trans (pageIndex_toNat_add hb).symm

/-- The first position has the largest index, so all positions have one exactly if it does. -/
theorem forall_exists_pageIndex_iff (htotal : 0 < total.toNat) :
    (∀ i : Half, i.toNat < total.toNat → ∃ a, pageIndex total i offset crypt = some a) ↔
      offset.toNat + total.toNat - 1 + (if crypt then 0x80 else 0) ≤ 0xFF := by
  simp only [exists_pageIndex_iff, indexSum]
  constructor
  · intro h
    obtain ⟨-, hfirst⟩ := h 0 htotal
    have hzero : (0 : Half).toNat = 0 := rfl
    omega
  · exact fun h i hi => ⟨hi, by omega⟩

/-- The position at which image page `k` is sent, in exact integers. -/
theorem imagePosition_toNat {k : Half} (h : k.toNat < total.toNat) :
    (total - 1 - k).toNat = total.toNat - 1 - k.toNat := by
  bv_omega

theorem exists_pageIndex_imagePosition {k : Half} (hk : k.toNat < total.toNat)
    (hfits : k.toNat + offset.toNat + (if crypt then 0x80 else 0) ≤ 0xFF) :
    ∃ index, pageIndex total (total - 1 - k) offset crypt = some index ∧
      index.toNat = k.toNat + offset.toNat + (if crypt then 0x80 else 0) := by
  have hposition := imagePosition_toNat hk
  have hsum : indexSum total (total - 1 - k) offset crypt = k.toNat + offset.toNat + (if crypt then 0x80 else 0) := by
    rw [indexSum]
    omega
  obtain ⟨index, hindex⟩ := exists_pageIndex_iff.mpr ⟨by omega, hsum.trans_le hfits⟩
  obtain ⟨-, hvalue⟩ := pageIndex_eq_some_iff.mp hindex
  exact ⟨index, hindex, hvalue.trans hsum⟩

/-! ### HDR.EMIT (R161, R162) -/

theorem exec_hdrEmit_of_not_fits {half : Half} {index : Byte}
    (hindex : pageIndex s.hdrTotal half s.startOffset s.crypt = some index)
    (h : s.params.outDepth < s.out.length + 6) : exec (.hdrEmit half) s = .next (raiseError .ovf s) := by
  simp only [exec, execHdrEmit, hindex]
  exact congrArg _ (emitThen_of_not_fits (bytes := headerBytes index (lowByte s.acc)) h)

theorem exec_hdrEmit_of_none {half : Half} (h : pageIndex s.hdrTotal half s.startOffset s.crypt = none) :
    exec (.hdrEmit half) s = .next (raiseError .idx s) := by
  simp only [exec, execHdrEmit, h]

/-- The record of errors tells the raising of `IDX` from the other two outcomes: one records no error, the other
`OVF`. -/
theorem exec_hdrEmit_eq_raise_idx_iff {half : Half} :
    exec (.hdrEmit half) s = .next (raiseError .idx s) ↔ pageIndex s.hdrTotal half s.startOffset s.crypt = none := by
  refine ⟨fun h => ?_, exec_hdrEmit_of_none⟩
  cases hindex : pageIndex s.hdrTotal half s.startOffset s.crypt with
  | none => rfl
  | some index =>
    obtain hroom | hroom := le_or_gt (s.out.length + 6) s.params.outDepth
    · have he := congrArg State.errors (Host.Outcome.next.inj ((exec_hdrEmit_of_fits hindex hroom).symm.trans h))
      simp at he
    · have he := congrArg State.errors (Host.Outcome.next.inj ((exec_hdrEmit_of_not_fits hindex hroom).symm.trans h))
      simp at he

/-! ### The obligations -/

/-- Settles O35: the two answers of `pageIndex`, each as an equivalence. -/
theorem pageIndexArithmetic : Obligations.PageIndexArithmetic := fun total i offset _ =>
  ⟨fun _ => pageIndex_eq_some_iff, fun h => pageIndex_eq_none_iff.mpr (.inl h),
    fun _ => ⟨pageIndex_base_le total i offset, fun h => pageIndex_eq_none_iff.mpr (.inr h)⟩⟩

/-- Settles O36: the arithmetic of a position without an index, and the record of errors for the command. -/
theorem idxRaisedExactlyWithoutAnIndex : Obligations.IdxRaisedExactlyWithoutAnIndex := by
  refine fun half s => ⟨?_, exec_hdrEmit_eq_raise_idx_iff⟩
  have hcrypt : 0x80 * s.crypt.toNat = if s.crypt then 0x80 else 0 := by cases s.crypt <;> rfl
  rw [hcrypt]
  exact pageIndex_eq_none_iff

/-- Settles O37: the command by its three outcomes; the last position is the position of image page 0, the first has
the largest index, and the corner cases without an index are cases of `pageIndex_eq_none_iff`. -/
theorem hdrEmitAssemblesTheHeader : Obligations.HdrEmitAssemblesTheHeader := by
  refine ⟨fun half => ?_, fun w hop hbits => ?_,
    fun half s index hindex => ⟨exec_hdrEmit_of_fits hindex, exec_hdrEmit_of_not_fits hindex⟩,
    fun _ _ => exec_hdrEmit_of_none, fun total offset crypt htotal hfits => ?_,
    fun total i offset crypt first index hfirst hindex => ?_, fun half s hzero => ?_, by decide, by decide,
    fun half s hcrypt hoffset => ?_⟩
  · rw [← encode_hdrEmit]
    exact issuesCommand_of_decode (decode_encode (.hdrEmit half))
  · exact raisesOnlyIll_of_opcode (o := .hdrEmit) hop fun h => hbits ((encodesRow_iff_fields w .hdrEmit).mp h).2
  · have hpos : (0 : Half).toNat < total.toNat := Nat.pos_of_ne_zero fun h => htotal (BitVec.eq_of_toNat_eq h)
    simpa using exists_pageIndex_imagePosition (k := 0) hpos (by simpa using hfits)
  · have hsum : first.toNat + 0 = index.toNat + i.toNat := pageIndex_add_eq_add hfirst hindex
    omega
  · exact exec_hdrEmit_of_none (pageIndex_eq_none_iff.mpr (.inl (by simp [hzero])))
  · refine exec_hdrEmit_of_none (pageIndex_eq_none_iff.mpr (.inr ?_))
    rw [indexSum, if_pos hcrypt]
    omega

/-- Settles O38: the position of image page `k` is exact, so its index is the formula's. -/
theorem imagePageHasItsOwnIndex : Obligations.ImagePageHasItsOwnIndex :=
  fun _ _ _ _ => exists_pageIndex_imagePosition

/-- Settles O39: an index and its position have a fixed sum, and the first position's index is the largest. -/
theorem indicesDescendAndAreDistinct : Obligations.IndicesDescendAndAreDistinct := by
  refine fun total offset crypt => ⟨fun i a => pageIndex_toNat_add, fun i j a b ha hb hij => ?_,
    fun i j a hi hj => ?_, fun htotal => ⟨forall_exists_pageIndex_iff htotal, ?_⟩⟩
  · have hsum := pageIndex_add_eq_add ha hb
    omega
  · exact BitVec.eq_of_toNat_eq (Nat.add_left_cancel (pageIndex_add_eq_add hi hj))
  · rw [forall_exists_pageIndex_iff htotal]
    split <;> omega

end Sys2Proof.Machine
end

section
/-! Control and reset (44_control.md, 70_reset_and_hazards.md section 1): OUT.CLEAR, BLK.RESET, and what a run can do
while the reset input is asserted. -/

namespace Sys2Proof.Machine

variable {s t : State}

/-! ### BLK.RESET and the reset input (R181, R230) -/

theorem exec_blkReset (s : State) : exec .blkReset s = .next (resetBlock s) := rfl

theorem serve_setReset_true (s : State) : serve (.setReset true) s = .next { resetBlock s with resetIn := true } := rfl

/-- Reset leaves no page total, so no position has an index (R160, R181). -/
theorem exec_hdrEmit_resetBlock (half : Half) (s : State) :
    exec (.hdrEmit half) (resetBlock s) = .next (raiseError .idx (resetBlock s)) :=
  exec_hdrEmit_of_none (pageIndex_eq_none_iff.mpr (.inl (Nat.zero_le half.toNat)))

/-! ### While the reset input is asserted (R231, log 5) -/

/-- Only the reset input's own events are performed while it is asserted: accesses are refused. -/
theorem exists_setReset_of_serve {e : HostEvent} (h : serve e s = .next t) (hs : s.resetIn = true) :
    ∃ b, e = .setReset b := by
  cases e with
  | setReset b => exact ⟨b, rfl⟩
  | read addr width => exact absurd (resetIn_of_accessWindow h) (by simp [hs])
  | write addr width v => exact absurd (resetIn_of_accessWindow h) (by simp [hs])

/-- A block held in reset keeps its state under every event that does not release it: the only one performed asserts
the input again. -/
theorem serve_eq_self_of_atReset {e : HostEvent} (h : serve e s = .next t) (hs : s.resetIn = true) (hreset : s.AtReset)
    (he : e ≠ .setReset false) : t = s := by
  obtain ⟨b, rfl⟩ := exists_setReset_of_serve h hs
  cases b with
  | false => exact absurd rfl he
  | true =>
    calc t = { resetBlock s with resetIn := true } := Host.Outcome.next.inj (h.symm.trans (serve_setReset_true s))
      _ = { s with resetIn := true } := by rw [hreset]
      _ = s := by rw [← hs]

/-- A block held in reset keeps its state along a run, by induction on its events. -/
theorem serveAll_eq_self_of_atReset {es : List HostEvent} (h : serveAll es s = .next t) (hs : s.resetIn = true)
    (hreset : s.AtReset) (hes : ∀ e ∈ es, e ≠ .setReset false) : t = s := by
  induction es with
  | nil => exact (Host.Outcome.next.inj h).symm
  | cons e es ih =>
    obtain ⟨u, hu, hrest⟩ := exists_serve_of_serveAll_cons h
    obtain rfl := serve_eq_self_of_atReset hu hs hreset (hes e List.mem_cons_self)
    exact ih hrest fun e' he' => hes e' (List.mem_cons_of_mem e he')

/-! ### The obligations -/

/-- Settles O41: the word of the command and its must-be-zero bits; the command and the reset input both are
`resetBlock`, which leaves HDR.EMIT without an index. -/
theorem blkResetResetsTheBlock : Obligations.BlkResetResetsTheBlock := by
  refine ⟨issuesCommand_of_decode (decode_encode .blkReset), exec_blkReset, fun w hop hbits => ?_,
    fun s t u ht hu => ?_, fun s t half ht => ?_⟩
  · exact raisesOnlyIll_of_opcode (o := .blkReset) hop fun h => hbits ((encodesRow_iff_fields w .blkReset).mp h).2
  · obtain rfl := Host.Outcome.next.inj ((exec_blkReset s).symm.trans ht)
    exact Host.Outcome.next.inj (hu.symm.trans (serve_setReset_true s))
  · obtain rfl := Host.Outcome.next.inj ((exec_blkReset s).symm.trans ht)
    exact exec_hdrEmit_resetBlock half s

/-- Settles O43: the state after the input is asserted is held in reset, so a run that does not release it keeps it
(`serveAll_eq_self_of_atReset`). -/
theorem resetInputResetsEveryElement : Obligations.ResetInputResetsEveryElement := by
  refine ⟨serve_setReset_true, exec_blkReset, fun es s t ht hes u hu => ?_, fun _ => rfl⟩
  have hasserted : t.resetIn = true := by
    obtain rfl := Host.Outcome.next.inj ((serve_setReset_true s).symm.trans ht)
    rfl
  exact serveAll_eq_self_of_atReset hu hasserted (serve_atReset ht hasserted) hes

/-- Settles O40: the word of the command and its must-be-zero bits, its meaning, and the read of the emptied `OUT`. -/
theorem outClearEmptiesTheFifo : Obligations.OutClearEmptiesTheFifo := by
  refine ⟨issuesCommand_of_decode (decode_encode .outClear), fun _ => rfl, fun s hout => ?_, fun s hs => ?_,
    fun w hop hbits => ?_⟩
  · have hkeep : { s with out := [] } = s := by rw [← hout]
    exact congrArg Host.Outcome.next hkeep
  · have hclear : serve (commandWrite s.params 0xF0000000) s = .next { s with out := [] } :=
      serve_commandWrite_encode hs .outClear
    have hread : serve (regRead s.params .outData) { s with out := [] } =
        .next (recordRead 0 { s with out := [] }) :=
      (serve_regRead (s := { s with out := [] }) hs .outData).trans (congrArg _ (readReg_outData_of_nil rfl))
    rw [serveAll_cons_of_next hclear, serveAll_cons_of_next hread]
    rfl
  · exact raisesOnlyIll_of_opcode (o := .outClear) hop fun h => hbits ((encodesRow_iff_fields w .outClear).mp h).2

end Sys2Proof.Machine
end

section
/-! The errors (60_exceptions.md): which event raises which error, what raising one changes, and that no `STATUS` bit
gates anything. -/

namespace Sys2Proof.Machine

variable {s t : State}

/-! ### Accesses that complete -/

/-- An access that completes was made at an offset of the window (R50). -/
theorem exists_offset_of_accessWindow {addr : Nat} {access : Nat → State → Result}
    (h : accessWindow addr access s = .next t) :
    ∃ offset < 64, addr = s.params.blockBase + offset := by
  cases ho : windowOffset s.params addr with
  | none => simp [accessWindow, resetIn_of_accessWindow h, ho] at h
  | some offset =>
    obtain ⟨haddr, hlt⟩ := windowOffset_eq_some.mp ho
    exact ⟨offset, hlt, haddr⟩

theorem serve_read_of_selectReg_none (hs : s.resetIn = false) {offset width : Nat} (hlt : offset < 64)
    (h : selectReg offset width = none) :
    serve (.read (s.params.blockBase + offset) width) s = .next (recordRead 0 (raiseError .addr s)) :=
  (accessWindow_base_add hs hlt _).trans (readWindow_of_selectReg_none h s)

theorem serve_write_of_selectReg_none (hs : s.resetIn = false) {offset width : Nat} (hlt : offset < 64)
    (h : selectReg offset width = none) (v : Word) :
    serve (.write (s.params.blockBase + offset) width v) s = .next (raiseError .addr s) :=
  (accessWindow_base_add hs hlt _).trans (writeWindow_of_selectReg_none h v s)

/-! ### The causes of the errors (R200) -/

/-- An access, read or write, that R55 makes an address error: of a wrong width, or of a misaligned or unmapped
offset. -/
def AddressError (p : Params) (e : HostEvent) : Prop :=
  ∃ addr width, (e = .read addr width ∨ ∃ v, e = .write addr width v) ∧
    (width ≠ 4 ∨ (addr - p.blockBase) % 4 ≠ 0 ∨ 0x2C ≤ addr - p.blockBase)

theorem addressError_base_add {p : Params} {offset width : Nat} {e : HostEvent}
    (h : selectReg offset width = none)
    (he : e = .read (p.blockBase + offset) width ∨ ∃ v, e = .write (p.blockBase + offset) width v) :
    AddressError p e :=
  ⟨_, width, he, by rw [Nat.add_sub_cancel_left]; exact selectReg_eq_none.mp h⟩

/-- An address error that completes raises `ADDR`. -/
theorem errors_of_addressError {e : HostEvent} (h : serve e s = .next t) (he : AddressError s.params e) :
    t.errors = s.errors ++ [.addr] := by
  obtain ⟨addr, width, rfl | ⟨v, rfl⟩, hbad⟩ := he
  · obtain ⟨offset, hlt, rfl⟩ := exists_offset_of_accessWindow h
    rw [Nat.add_sub_cancel_left, ← selectReg_eq_none] at hbad
    have hserve := serve_read_of_selectReg_none (resetIn_of_accessWindow h) hlt hbad
    obtain rfl := Host.Outcome.next.inj (hserve.symm.trans h)
    rfl
  · obtain ⟨offset, hlt, rfl⟩ := exists_offset_of_accessWindow h
    rw [Nat.add_sub_cancel_left, ← selectReg_eq_none] at hbad
    have hserve := serve_write_of_selectReg_none (resetIn_of_accessWindow h) hlt hbad v
    obtain rfl := Host.Outcome.next.inj (hserve.symm.trans h)
    rfl

/-- An event that raises an error is an illegal word written to `CMD`, an address error, or a command that can raise
that error. -/
theorem cause_of_serve {e : HostEvent} {c : ErrCode} (h : serve e s = .next t) (hc : t.errors = s.errors ++ [c]) :
    (c = .ill ∧ ∃ w why, e = commandWrite s.params w ∧ decode w = .illegal why) ∨
    (c = .addr ∧ AddressError s.params e) ∨
    ∃ i, commandAt s.params e = some i ∧ c ∈ mayRaise i := by
  obtain ⟨-, rfl⟩ | ⟨-, rfl⟩ | ⟨-, r, -, rfl⟩ | ⟨-, r, v, -, -, rfl⟩ | ⟨-, w, i, rfl, hw, hx⟩ |
    ⟨-, w, why, rfl, hw, rfl⟩ | ⟨-, _, _, -, hnone, rfl, rfl⟩ | ⟨-, _, _, v, -, hnone, rfl, rfl⟩ := serve_cases h
  · simp at hc
  · simp at hc
  · simp at hc
  · simp at hc
  · obtain ⟨d, hd, rfl⟩ | ⟨hkept, -⟩ := exec_errors hx
    · obtain rfl : d = c := by simpa using hc
      exact .inr (.inr ⟨i, commandAt_commandWrite hw, hd⟩)
    · simp [hkept] at hc
  · obtain rfl : ErrCode.ill = c := by simpa using hc
    exact .inl ⟨rfl, w, why, rfl, hw⟩
  · obtain rfl : ErrCode.addr = c := by simpa using hc
    exact .inr (.inl ⟨rfl, addressError_base_add hnone (.inl rfl)⟩)
  · obtain rfl : ErrCode.addr = c := by simpa using hc
    exact .inr (.inl ⟨rfl, addressError_base_add hnone (.inr ⟨v, rfl⟩)⟩)

/-- The only errors of a command are `IDX` and `OVF`. -/
theorem idx_or_ovf_of_mem_mayRaise {i : Instr} {c : ErrCode} (h : c ∈ mayRaise i) : c = .idx ∨ c = .ovf := by
  cases i with
  | hdrEmit half => simpa [mayRaise] using h
  | crcEmit | wakeEmit => exact .inr (by simpa [mayRaise] using h)
  | pckInit | pckByte | crcInit | crcByte | outClear | blkReset => simp [mayRaise] at h

theorem raises_ill_iff {e : HostEvent} (h : serve e s = .next t) : t.errors = s.errors ++ [.ill] ↔
    ∃ w why, e = commandWrite s.params w ∧ decode w = .illegal why := by
  constructor
  · intro hc
    obtain ⟨-, hill⟩ | ⟨hne, -⟩ | ⟨i, -, hi⟩ := cause_of_serve h hc
    · exact hill
    · cases hne
    · simpa using idx_or_ovf_of_mem_mayRaise hi
  · rintro ⟨w, why, rfl, hw⟩
    obtain rfl := Host.Outcome.next.inj
      ((raisesOnlyIll_of_decode hw s (resetIn_of_accessWindow h)).symm.trans h)
    rfl

theorem raises_addr_iff {e : HostEvent} (h : serve e s = .next t) :
    t.errors = s.errors ++ [.addr] ↔ AddressError s.params e := by
  refine ⟨fun hc => ?_, errors_of_addressError h⟩
  obtain ⟨hne, -⟩ | ⟨-, haddr⟩ | ⟨i, -, hi⟩ := cause_of_serve h hc
  · cases hne
  · exact haddr
  · simpa using idx_or_ovf_of_mem_mayRaise hi

/-- An event that raises `IDX` or `OVF` is a command that raises it and does nothing else. -/
theorem exec_eq_raise_of_serve {e : HostEvent} {c : ErrCode} (h : serve e s = .next t)
    (hc : t.errors = s.errors ++ [c]) (hill : c ≠ .ill) (haddr : c ≠ .addr) :
    ∃ i, commandAt s.params e = some i ∧ c ∈ mayRaise i ∧ exec i s = .next (raiseError c s) := by
  obtain ⟨hne, -⟩ | ⟨hne, -⟩ | ⟨i, he, hi⟩ := cause_of_serve h hc
  · exact absurd hne hill
  · exact absurd hne haddr
  · exact ⟨i, he, hi, eq_raiseError_of_serve h hc haddr ▸ exec_of_serve h he⟩

/-- An event whose command raises an error raises it. -/
theorem errors_of_exec_eq_raise {e : HostEvent} {i : Instr} {c : ErrCode} (h : serve e s = .next t)
    (he : commandAt s.params e = some i) (hi : exec i s = .next (raiseError c s)) :
    t.errors = s.errors ++ [c] := by
  obtain rfl := Host.Outcome.next.inj (hi.symm.trans (exec_of_serve h he))
  rfl

theorem raises_idx_iff {e : HostEvent} (h : serve e s = .next t) : t.errors = s.errors ++ [.idx] ↔
    ∃ half, commandAt s.params e = some (.hdrEmit half) ∧
      pageIndex s.hdrTotal half s.startOffset s.crypt = none := by
  constructor
  · intro hc
    obtain ⟨i, he, hi, hx⟩ := exec_eq_raise_of_serve h hc (by decide) (by decide)
    cases i with
    | hdrEmit half => exact ⟨half, he, exec_hdrEmit_eq_raise_idx_iff.mp hx⟩
    | pckInit | pckByte | crcInit | crcByte | crcEmit | wakeEmit | outClear | blkReset => simp [mayRaise] at hi
  · rintro ⟨half, he, hnone⟩
    exact errors_of_exec_eq_raise h he (exec_hdrEmit_of_none hnone)

/-- A command whose output does not fit: one of the three emitting commands, HDR.EMIT with an index (R63). -/
def Overflows (i : Instr) (s : State) : Prop :=
  (i = .crcEmit ∧ s.params.outDepth < s.out.length + 2) ∨
  (i = .wakeEmit ∧ s.params.outDepth < s.out.length + 8) ∨
  ∃ half index, i = .hdrEmit half ∧ pageIndex s.hdrTotal half s.startOffset s.crypt = some index ∧
    s.params.outDepth < s.out.length + 6

theorem exec_eq_raise_ovf_iff {i : Instr} : exec i s = .next (raiseError .ovf s) ↔ Overflows i s := by
  constructor
  · intro h
    obtain ⟨_, -, e⟩ | ⟨_, -, e⟩ | ⟨-, -, e⟩ | ⟨hi, hfull, -⟩ | ⟨-, -, e⟩ | ⟨hi, hfull, -⟩ | ⟨_, -, -, e⟩ |
      ⟨_, _, -, -, -, e⟩ | ⟨half, index, hi, hindex, hfull, -⟩ | ⟨-, e⟩ | ⟨-, e⟩ := exec_cases i s
    case inr.inr.inr.inl => exact .inl ⟨hi, hfull⟩
    case inr.inr.inr.inr.inr.inl => exact .inr (.inl ⟨hi, hfull⟩)
    case inr.inr.inr.inr.inr.inr.inr.inr.inl => exact .inr (.inr ⟨half, index, hi, hindex, hfull⟩)
    all_goals
      have herrors := congrArg State.errors (Host.Outcome.next.inj (e.symm.trans h))
      simp at herrors
  · rintro (⟨rfl, hfull⟩ | ⟨rfl, hfull⟩ | ⟨half, index, rfl, hindex, hfull⟩)
    · exact exec_crcEmit_of_not_fits hfull
    · exact exec_wakeEmit_of_not_fits hfull
    · exact exec_hdrEmit_of_not_fits hindex hfull

theorem raises_ovf_iff {e : HostEvent} (h : serve e s = .next t) : t.errors = s.errors ++ [.ovf] ↔
    ∃ i, commandAt s.params e = some i ∧ Overflows i s := by
  constructor
  · intro hc
    obtain ⟨i, he, -, hx⟩ := exec_eq_raise_of_serve h hc (by decide) (by decide)
    exact ⟨i, he, exec_eq_raise_ovf_iff.mp hx⟩
  · rintro ⟨i, he, hi⟩
    exact errors_of_exec_eq_raise h he (exec_eq_raise_ovf_iff.mpr hi)

/-- PCK.INIT, PCK.BYTE, CRC.INIT, CRC.BYTE, OUT.CLEAR and BLK.RESET raise no error (R200). -/
theorem mayRaise_eq_nil {i : Instr} (hcrc : i ≠ .crcEmit) (hwake : i ≠ .wakeEmit) (hhdr : ∀ half, i ≠ .hdrEmit half) :
    mayRaise i = [] := by
  cases i with
  | crcEmit => exact absurd rfl hcrc
  | wakeEmit => exact absurd rfl hwake
  | hdrEmit half => exact absurd rfl (hhdr half)
  | pckInit | pckByte | crcInit | crcByte | outClear | blkReset => rfl

/-! ### What raising an error changes (R201, R205) -/

/-- An event that records an error raises it, and a read that raises one also observes 0. -/
theorem serve_of_errors_ne {e : HostEvent} (h : serve e s = .next t) (hne : t.errors ≠ s.errors) :
    ∃ c, t.status = statusAfterError c s.status ∧ (t = raiseError c s ∨
      c = .addr ∧ (∃ addr width, e = .read addr width) ∧ t = recordRead 0 (raiseError c s)) := by
  obtain ⟨hkept, -⟩ | ⟨c, -, hstatus, ht⟩ := serve_errors h
  · exact absurd hkept hne
  · exact ⟨c, hstatus, ht⟩

/-- Raising an error clears no bit. -/
theorem hasStatus_raiseError_of_hasStatus {c : ErrCode} (h : hasStatus s.status c = true) (d : ErrCode) :
    hasStatus (raiseError d s).status c = true := by
  rw [raiseError_status, hasStatus_statusAfterError, h, Bool.or_true]

/-- Raising an error whose bit is 1 already changes nothing but the record of errors. -/
theorem raiseError_of_hasStatus {c : ErrCode} (h : hasStatus s.status c = true) :
    raiseError c s = { s with errors := s.errors ++ [c] } := by
  rw [raiseError, statusAfterError_of_hasStatus h]

/-! ### No `STATUS` bit gates anything (R203) -/

theorem emitThen_withStatus (bytes : List Byte) (others : State → State) (s : State) (st : BitVec 4)
    (ho : ∀ u : State, others { u with status := st } = { others u with status := st }) :
    ∃ st', emitThen bytes others { s with status := st } = { emitThen bytes others s with status := st' } := by
  obtain ⟨h, e⟩ | ⟨h, e⟩ := emitThen_cases bytes others s
  · rw [e, emitThen_of_fits (s := { s with status := st }) h]
    exact ⟨st, ho { s with out := s.out ++ bytes }⟩
  · rw [e, emitThen_of_not_fits (s := { s with status := st }) h]
    exact ⟨statusAfterError .ovf st, rfl⟩

/-- A command does not look at `STATUS`. -/
theorem exec_withStatus {i : Instr} (h : exec i s = .next t) (st : BitVec 4) :
    ∃ st', exec i { s with status := st } = .next { t with status := st' } := by
  cases i with
  | pckInit | pckByte | crcInit | crcByte | outClear =>
    obtain rfl := Host.Outcome.next.inj h
    exact ⟨st, rfl⟩
  | blkReset =>
    obtain rfl := Host.Outcome.next.inj h
    exact ⟨resetStatus, rfl⟩
  | crcEmit =>
    obtain rfl := Host.Outcome.next.inj h
    exact (emitThen_withStatus _ id s st fun _ => rfl).imp fun _ => congrArg _
  | wakeEmit =>
    obtain rfl := Host.Outcome.next.inj h
    exact (emitThen_withStatus _ _ s st fun _ => rfl).imp fun _ => congrArg _
  | hdrEmit half =>
    cases hindex : pageIndex s.hdrTotal half s.startOffset s.crypt with
    | none =>
      obtain rfl := Host.Outcome.next.inj ((exec_hdrEmit_of_none hindex).symm.trans h)
      exact ⟨_, exec_hdrEmit_of_none hindex⟩
    | some index =>
      simp only [exec, execHdrEmit, hindex, Host.Outcome.next.injEq] at h ⊢
      obtain rfl := h
      exact emitThen_withStatus _ id s st fun _ => rfl

theorem popOut_withStatus (s : State) (st : BitVec 4) :
    popOut { s with status := st } = { popOut s with status := st } := by
  obtain ⟨h, e⟩ | ⟨b, rest, h, e⟩ := popOut_cases s
  · rw [e]
    exact popOut_of_nil h
  · rw [e]
    exact popOut_of_cons h

/-- Only a read of `STATUS` looks at it. -/
theorem readReg_withStatus (r : Reg) (s : State) (st : BitVec 4) :
    ∃ vs, readReg r { s with status := st } = { readReg r s with status := st, reads := vs } ∧
      (r ≠ .status → vs = (readReg r s).reads) := by
  cases r with
  | status => exact ⟨_, rfl, absurd rfl⟩
  | outData => exact ⟨_, congrArg (recordRead _) (popOut_withStatus s st), fun _ => rfl⟩
  | cmd | pckAcc | crcVal | hdrTotal | hdrCfg | wakeAddr | wakeReg | wakeVal | outLevel =>
    exact ⟨_, rfl, fun _ => rfl⟩

theorem writeReg_withStatus (r : Reg) (v : Word) (s : State) (st : BitVec 4) :
    ∃ st', writeReg r v { s with status := st } = { writeReg r v s with status := st' } := by
  cases r with
  | status => exact ⟨statusAfterWrite v st, rfl⟩
  | cmd | pckAcc | crcVal | hdrTotal | hdrCfg | wakeAddr | wakeReg | wakeVal | outData | outLevel =>
    exact ⟨st, rfl⟩

/-- With another `STATUS` an event does the same to everything but `STATUS` and what a read of `STATUS` returns. -/
theorem serve_withStatus {e : HostEvent} (h : serve e s = .next t) (st : BitVec 4) :
    ∃ st' vs, serve e { s with status := st } = .next { t with status := st', reads := vs } ∧
      (e ≠ regRead s.params .status → vs = t.reads) := by
  obtain ⟨rfl, rfl⟩ | ⟨rfl, rfl⟩ | ⟨hs, r, rfl, rfl⟩ | ⟨hs, r, v, hr, rfl, rfl⟩ | ⟨hs, w, i, rfl, hw, hx⟩ |
    ⟨hs, w, why, rfl, hw, rfl⟩ | ⟨hs, _, _, hlt, hnone, rfl, rfl⟩ | ⟨hs, _, _, v, hlt, hnone, rfl, rfl⟩ :=
    serve_cases h
  · exact ⟨_, _, rfl, fun _ => rfl⟩
  · exact ⟨_, _, rfl, fun _ => rfl⟩
  · obtain ⟨vs, hread, hvs⟩ := readReg_withStatus r s st
    exact ⟨st, vs, hread ▸ serve_regRead (s := { s with status := st }) hs r, fun hne => hvs (fun hr => hne (hr ▸ rfl))⟩
  · obtain ⟨st', hwrite⟩ := writeReg_withStatus r v s st
    exact ⟨st', _, hwrite ▸ serve_regWrite (s := { s with status := st }) hs hr v, fun _ => rfl⟩
  · obtain ⟨st', hexec⟩ := exec_withStatus hx st
    exact ⟨st', _, (issuesCommand_of_decode hw { s with status := st } hs).trans hexec, fun _ => rfl⟩
  · exact ⟨_, _, raisesOnlyIll_of_decode hw { s with status := st } hs, fun _ => rfl⟩
  · exact ⟨_, _, serve_read_of_selectReg_none (s := { s with status := st }) hs hlt hnone, fun _ => rfl⟩
  · exact ⟨_, _, serve_write_of_selectReg_none (s := { s with status := st }) hs hlt hnone v, fun _ => rfl⟩

/-- A refusal does not look at `STATUS`. -/
theorem serve_refused_withStatus {e : HostEvent} {r : Refusal} (h : serve e s = .refused r) (st : BitVec 4) :
    serve e { s with status := st } = .refused r := by
  cases e with
  | read addr width =>
    have hr : RefusesAccess s addr r := serve_read_eq_refused_iff.mp h
    exact serve_read_eq_refused_iff.mpr hr
  | write addr width v =>
    have hr : RefusesAccess s addr r := serve_write_eq_refused_iff.mp h
    exact serve_write_eq_refused_iff.mpr hr
  | setReset b =>
    obtain ⟨t, ht, -⟩ := serve_setReset b s
    cases ht.symm.trans h

/-! ### When a `STATUS` bit becomes 0 (R203) -/

@[simp] theorem readReg_status (r : Reg) (s : State) : (readReg r s).status = s.status := by
  cases r with
  | outData => obtain ⟨-, h⟩ | ⟨_, _, -, h⟩ := popOut_cases s <;> simp [readReg, readEffect, h]
  | cmd | status | pckAcc | crcVal | hdrTotal | hdrCfg | wakeAddr | wakeReg | wakeVal | outLevel => rfl

/-- A register write clears a bit only by a 1 written to it in `STATUS` (R33). -/
theorem writeReg_clears {r : Reg} {v : Word} {c : ErrCode} (hset : hasStatus s.status c = true)
    (hclear : hasStatus (writeReg r v s).status c = false) : r = .status ∧ v.getLsbD (codeOf c) = true := by
  cases r with
  | status => exact ⟨rfl, by simpa [writeReg, hasStatus_statusAfterWrite, hset] using hclear⟩
  | cmd | pckAcc | crcVal | hdrTotal | hdrCfg | wakeAddr | wakeReg | wakeVal | outData | outLevel =>
    cases hset.symm.trans hclear

/-- The only command that clears a bit is BLK.RESET. -/
theorem eq_blkReset_of_exec_clears {i : Instr} {c : ErrCode} (h : exec i s = .next t)
    (hset : hasStatus s.status c = true) (hclear : hasStatus t.status c = false) : i = .blkReset := by
  by_contra hi
  obtain ⟨d, -, rfl⟩ | ⟨-, hstatus⟩ := exec_errors h
  · cases (hasStatus_raiseError_of_hasStatus hset d).symm.trans hclear
  · rw [hstatus hi, hset] at hclear
    cases hclear

/-- The three ways in which a bit becomes 0. -/
theorem clearing_event {e : HostEvent} {c : ErrCode} (h : serve e s = .next t)
    (hset : hasStatus s.status c = true) (hclear : hasStatus t.status c = false) :
    (∃ v : Word, e = regWrite s.params .status v ∧ v.getLsbD (codeOf c) = true) ∨
    commandAt s.params e = some .blkReset ∨ e = .setReset true := by
  have hraise (d : ErrCode) : hasStatus (raiseError d s).status c ≠ false := by
    rw [hasStatus_raiseError_of_hasStatus hset d]
    decide
  obtain ⟨rfl, -⟩ | ⟨-, rfl⟩ | ⟨-, r, -, rfl⟩ | ⟨-, r, v, -, rfl, rfl⟩ | ⟨-, w, i, rfl, hw, hx⟩ |
    ⟨-, _, _, -, -, rfl⟩ | ⟨-, _, _, -, -, -, rfl⟩ | ⟨-, _, _, _, -, -, -, rfl⟩ := serve_cases h
  · exact .inr (.inr rfl)
  · cases hset.symm.trans hclear
  · rw [readReg_status, hset] at hclear
    cases hclear
  · obtain ⟨rfl, hv⟩ := writeReg_clears hset hclear
    exact .inl ⟨v, rfl, hv⟩
  · obtain rfl := eq_blkReset_of_exec_clears hx hset hclear
    exact .inr (.inl (commandAt_commandWrite hw))
  · exact absurd hclear (hraise .ill)
  · exact absurd hclear (hraise .addr)
  · exact absurd hclear (hraise .addr)

/-! ### The obligations -/

/-- Settles O48: `STATUS` may be replaced under an event that completes (`serve_withStatus`) and under a refusal, and
`clearing_event` lists what clears a bit. -/
theorem statusBitsGateNothingAndStick : Obligations.StatusBitsGateNothingAndStick := by
  refine ⟨fun e s t st h => ?_, fun e s st r h => serve_refused_withStatus h st,
    fun e s t c h hset hclear => clearing_event h hset hclear⟩
  obtain ⟨st', vs, hserve, hreads⟩ := serve_withStatus h st
  exact ⟨_, hserve, rfl, hreads⟩

/-- Settles O46: each error's cause as an equivalence; an event that records an error is `raiseError`, and a command
without an error of its own raises none. -/
theorem errorsHaveExactlyTheirCauses : Obligations.ErrorsHaveExactlyTheirCauses := by
  refine ⟨⟨rfl, rfl, rfl, rfl⟩, fun e s t h => ⟨raises_ill_iff h, raises_idx_iff h, ?_, raises_addr_iff h, ?_, ?_⟩⟩
  · rw [raises_ovf_iff h]
    simp [Overflows, and_or_left, exists_or]
  · intro hne
    obtain ⟨c, -, rfl | ⟨-, -, rfl⟩⟩ := serve_of_errors_ne h hne
    · rfl
    · rfl
  · intro i he hcrc hwake hhdr
    obtain ⟨c, hc, -⟩ | ⟨hkept, -⟩ := exec_errors (exec_of_serve h he)
    · simp [mayRaise_eq_nil hcrc hwake hhdr] at hc
    · exact hkept

/-- Settles O47: an event that records an error is `raiseError`, which a read follows with the value 0. -/
theorem errorsArePrecise : Obligations.ErrorsArePrecise := by
  intro e s t h hne
  obtain ⟨c, hstatus, ht⟩ := serve_of_errors_ne h hne
  refine ⟨c, by simp [hstatus, hasStatus_statusAfterError], ht.imp id ?_⟩
  rintro ⟨rfl, hread, rfl⟩
  exact ⟨rfl, hread, rfl⟩

/-- Settles O49: an event records at most one error (`serve_errors`), and each of the others is the outcome of its own
access. -/
theorem oneErrorPerAccessInPriorityOrder : Obligations.OneErrorPerAccessInPriorityOrder := by
  refine ⟨fun e s t h => ?_, fun s width w hs hwidth => ?_, fun s w why hs hw => raisesOnlyIll_of_decode hw s hs,
    fun s half hs hnone _ => ?_, fun s half index hs hindex hfull => ?_⟩
  · obtain ⟨hkept, -⟩ | ⟨c, hc, -⟩ := serve_errors h
    · exact .inl hkept
    · exact .inr ⟨c, hc⟩
  · exact serve_write_of_selectReg_none hs (by decide) (selectReg_eq_none.mpr (.inl hwidth)) w
  · rw [serve_commandWrite_encode hs, exec_hdrEmit_of_none hnone]
  · rw [serve_commandWrite_encode hs, exec_hdrEmit_of_not_fits hindex hfull]

/-- Settles O50: the bits after an error are those of `statusAfterError`, which keeps a `STATUS` that holds the bit. -/
theorem errorsSetTheirBitBesideTheOthers : Obligations.ErrorsSetTheirBitBesideTheOthers := by
  intro e s t c h hc
  obtain ⟨hkept, -⟩ | ⟨d, hd, hstatus, ht⟩ := serve_errors h
  · simp [hkept] at hc
  obtain rfl : d = c := by simpa [hd] using hc
  refine ⟨fun b => by rw [hstatus, hasStatus_statusAfterError], fun hset => ?_⟩
  rw [raiseError_of_hasStatus hset] at ht
  obtain rfl | ⟨-, -, rfl⟩ := ht
  · rfl
  · rfl

end Sys2Proof.Machine
end
